-- ==== Sys2Proof/Word.lean ====
section
/-! DEFINITION. The word and byte types (00_scope.md R10 to R12). Addition on `Word` is the BitVec
addition, modulo 65,536, which is R12's `+`; `&`, `~` are `&&&`, `~~~`. -/

namespace Sys2Proof

/-- R10: a word, a register and an address are 16 bits, unsigned, wrapping (R12). -/
abbrev Word := BitVec 16

/-- R9: a character of the I/O Bridge is one byte. It is also the width of a trap vector (R82). -/
abbrev Byte := BitVec 8

end Sys2Proof
end

