-- ==== Sys2Proof/Config.lean ====
section
/-! DEFINITION. What an implementation fixes (the parameters of 00_scope.md R10, as a type) and the
environment's free answers. The VALUES of the parameters are in Machine/Params.lean. -/

namespace Sys2Proof.Config

/-- R83: the sixteen opcode slots the dispatcher has an arm for. JSR and JSRR share one slot. -/
inductive Slot where
  | br | add | ld | st | jsr | and | ldr | str
  | rti | not | ldi | sti | jmp | res | lea | trap
  deriving DecidableEq, Repr

/-- Every slot once, in R83's order. -/
def Slot.all : List Slot :=
  [.br, .add, .ld, .st, .jsr, .and, .ldr, .str, .rti, .not, .ldi, .sti, .jmp, .res, .lea, .trap]

/-- R201: the six built-in service routines, in the source's order. -/
inductive Routine where
  | getc | out | puts | inEcho | putsp | halt
  deriving DecidableEq, Repr

/-- Every routine once, in R201's order. -/
def Routine.all : List Routine := [.getc, .out, .puts, .inEcho, .putsp, .halt]

/-- R209: the two values of parameter `UNKNOWN_TRAP_POLICY`. -/
inductive TrapPolicy where
  | fault
  | nop
  deriving DecidableEq, Repr

/-- R10: the parameters the source leaves without a value, one field each. -/
structure Params where
  /-- `OPMAP`, the opcode value of each slot (R83, D1). -/
  opmap : Slot → BitVec 4
  /-- `PC_START` (R39, D5). -/
  pcStart : Word
  /-- `KBSR`, the keyboard-status address (R52, D6). -/
  kbsr : Word
  /-- `KBDR`, the keyboard-data address (R52, D6). -/
  kbdr : Word
  /-- `TRAPVEC`, the vector of each routine (R201, D7). -/
  trapvec : Routine → Byte
  /-- `UNKNOWN_TRAP_POLICY` (R209, D8). -/
  unknownTrapPolicy : TrapPolicy
  /-- `LINK_WRITE_SETS_FLAGS` (R157, D12). -/
  linkWriteSetsFlags : Bool
  /-- `IN_PROMPT`, the bytes IN writes before it reads (R206, D15). -/
  inPrompt : List Byte
  /-- `HALT_MESSAGE`, the bytes HALT writes (R208, D16). -/
  haltMessage : List Byte

/-- R203, R245: what the bridge can report in place of a character: "end of input or an error". -/
inductive IOReport where
  | endOfInput
  | error
  deriving DecidableEq, Repr, Inhabited

/-- R9, R245: one answer of `read_char()`: a byte, or an I/O fault with the bridge's report. -/
inductive ReadResult where
  | byte (b : Byte)
  | fail (r : IOReport)
  deriving DecidableEq, Repr, Inhabited

/-! The free answers of the bridge come in RUNS of plain answers, each run of a free length and closed by
one answer of the other kind. Every sequence of answers is such a sequence of runs, and where the next
answer of the other kind lies is then a value that can be asked for (R261's hang: `pollBudget`). -/

/-- FREE VALUE (assumption 2). How many times in a row, in the n-th run of its free answers,
`key_available()` answers true before it answers false; `none`: for ever. R58 calls the answer "a free
answer of the oracle", so it has no body. -/
opaque freeKeyRun : Nat → Option Nat

/-- FREE VALUE (assumption 3). How many characters other than 0x00 in a row, in the n-th run of its free
answers, the poll's `read_char()` gives before it gives another answer; `none`: for ever. -/
opaque freeCharRun : Nat → Option Nat

/-- FREE VALUE (assumption 3). One less than the k-th character of the n-th run. -/
opaque freeChar : Nat → Nat → Fin 255

/-- FREE VALUE (assumption 3). What closes the n-th run: the character 0x00 (`none`), or a fault (R9, D29). -/
opaque freeCharEnd : Nat → Option IOReport

end Sys2Proof.Config
end

