-- ==== Sys2Proof/Machine/Params.lean ====
section
/-! DEFINITION. The default value of every parameter of 00_scope.md R10, and the two look-ups the
decoder and the TRAP handler make in them. The numbers are PRESUMED (the spec marks them as general
knowledge, 93_implementation_defined.md G2, G5, G6, G8, G9): assumption 1. -/

namespace Sys2Proof.Machine

open Sys2Proof.Config

/-- `OPMAP` (R83, D1). PRESUMED. -/
def opmapDefault : Slot → BitVec 4
  | .br => 0x0 | .add => 0x1 | .ld => 0x2 | .st => 0x3
  | .jsr => 0x4 | .and => 0x5 | .ldr => 0x6 | .str => 0x7
  | .rti => 0x8 | .not => 0x9 | .ldi => 0xA | .sti => 0xB
  | .jmp => 0xC | .res => 0xD | .lea => 0xE | .trap => 0xF

/-- `TRAPVEC` (R201, D7). PRESUMED. -/
def trapvecDefault : Routine → Byte
  | .getc => 0x20 | .out => 0x21 | .puts => 0x22
  | .inEcho => 0x23 | .putsp => 0x24 | .halt => 0x25

/-- `IN_PROMPT` (R206, D15): the bytes of "Enter a character: " as 95_test_vectors.md T9 lists them. PRESUMED. -/
def inPromptDefault : List Byte :=
  [0x45, 0x6E, 0x74, 0x65, 0x72, 0x20, 0x61, 0x20, 0x63, 0x68,
   0x61, 0x72, 0x61, 0x63, 0x74, 0x65, 0x72, 0x3A, 0x20]

/-- The parameters this machine has: R10's defaults. PRESUMED or DESIGN CHOICE, see assumption 1. -/
def params : Params where
  opmap := opmapDefault
  pcStart := 0x3000
  kbsr := 0xFE00
  kbdr := 0xFE02
  trapvec := trapvecDefault
  unknownTrapPolicy := .fault
  linkWriteSetsFlags := true
  inPrompt := inPromptDefault
  haltMessage := []

/-- R114: the slot an opcode value selects, the inverse of `OPMAP`. `OPMAP` is one to one over the
sixteen values (Laws/Encoding.lean: `opmap_slotOf`), so the default of `getD` is never taken. -/
def slotOf (op : BitVec 4) : Slot :=
  (Slot.all.find? (fun t => params.opmap t == op)).getD .trap

/-- R201: the routine a vector selects, the inverse of `TRAPVEC`; `none` is R209's unlisted vector. -/
def routineOf (v : Byte) : Option Routine :=
  Routine.all.find? (fun r => params.trapvec r == v)

end Sys2Proof.Machine
end

