-- ==== Sys2Proof/Syntax.lean ====
section
/-! DEFINITION. The instructions as syntax: one constructor per row of spec/opcode_table.json, with the
fields 30_encoding.md R88 gives it. An immediate is kept as the raw field of its width (R85); the
meanings sign-extend it. -/

namespace Sys2Proof

/-- R21: the general registers R0 to R7. -/
inductive Reg where
  | r0 | r1 | r2 | r3 | r4 | r5 | r6 | r7
  deriving DecidableEq, Repr

/-- One constructor per row of the opcode table. -/
inductive Instr where
  /-- BR (R150): the condition bits n, z, p and PCoffset9. -/
  | br (n z p : Bool) (off : BitVec 9)
  /-- ADD, register form (R132). -/
  | addReg (dr sr1 sr2 : Reg)
  /-- ADD, immediate form (R133). -/
  | addImm (dr sr1 : Reg) (imm : BitVec 5)
  /-- LD (R171). -/
  | ld (dr : Reg) (off : BitVec 9)
  /-- ST (R175). -/
  | st (sr : Reg) (off : BitVec 9)
  /-- JSR (R155). -/
  | jsr (off : BitVec 11)
  /-- JSRR (R156). -/
  | jsrr (base : Reg)
  /-- AND, register form (R134). -/
  | andReg (dr sr1 sr2 : Reg)
  /-- AND, immediate form (R135). -/
  | andImm (dr sr1 : Reg) (imm : BitVec 5)
  /-- LDR (R173). -/
  | ldr (dr base : Reg) (off : BitVec 6)
  /-- STR (R177). -/
  | str (sr base : Reg) (off : BitVec 6)
  /-- RTI (R230). The ignored bits 11 to 0 are kept because the fault record holds the whole word (R230, D25). -/
  | rti (unused : BitVec 12)
  /-- NOT (R136). -/
  | notReg (dr sr1 : Reg)
  /-- LDI (R172). -/
  | ldi (dr : Reg) (off : BitVec 9)
  /-- STI (R176). -/
  | sti (sr : Reg) (off : BitVec 9)
  /-- JMP (R153). RET is `jmp .r7` (R154). -/
  | jmp (base : Reg)
  /-- RES (R231), with its ignored bits, as for RTI. -/
  | res (unused : BitVec 12)
  /-- LEA (R174). -/
  | lea (dr : Reg) (off : BitVec 9)
  /-- The table's generic row TRAP (R200): any vector. The seven constructors below refine it, and the
  decoder answers one of those (assumption 8). -/
  | trap (vect : Byte)
  /-- GETC (R203), TRAP with GETC's vector. -/
  | getc
  /-- OUT (R204). -/
  | out
  /-- PUTS (R205). -/
  | puts
  /-- IN (R206). -/
  | inEcho
  /-- PUTSP (R207). -/
  | putsp
  /-- HALT (R208). -/
  | halt
  /-- TRAP with a vector that selects none of the six routines (R209). -/
  | trapUnlisted (vect : Byte)
  deriving DecidableEq, Repr

end Sys2Proof
end

