-- ==== Sys2Proof/Decode.lean ====
section
/-! DEFINITION. The decoder (30_encoding.md R81 to R93), total on words, and after it the encoder
(R93, last paragraph), both from the layout table R88. -/

namespace Sys2Proof

open Sys2Proof.Config (Slot Routine)
open Sys2Proof.Machine (params slotOf routineOf)

/-! ### Fields (R82, R84, R85) -/

/-- The opcode field, `ir[15:12]`. -/
def opcodeField (ir : Word) : BitVec 4 := ir.extractLsb' 12 4
/-- `RA = ir[11:9]`. -/
def fieldRA (ir : Word) : BitVec 3 := ir.extractLsb' 9 3
/-- `RB = ir[8:6]`. -/
def fieldRB (ir : Word) : BitVec 3 := ir.extractLsb' 6 3
/-- `RC = ir[2:0]`. -/
def fieldRC (ir : Word) : BitVec 3 := ir.extractLsb' 0 3
/-- imm5, `ir[4:0]`. -/
def fieldImm5 (ir : Word) : BitVec 5 := ir.extractLsb' 0 5
/-- offset6, `ir[5:0]`. -/
def fieldOffset6 (ir : Word) : BitVec 6 := ir.extractLsb' 0 6
/-- PCoffset9, `ir[8:0]`. -/
def fieldOffset9 (ir : Word) : BitVec 9 := ir.extractLsb' 0 9
/-- PCoffset11, `ir[10:0]`. -/
def fieldOffset11 (ir : Word) : BitVec 11 := ir.extractLsb' 0 11
/-- The trap vector, `ir[7:0]`. -/
def fieldVector (ir : Word) : Byte := ir.extractLsb' 0 8
/-- The bits RTI and RES ignore, `ir[11:0]`. -/
def fieldUnused12 (ir : Word) : BitVec 12 := ir.extractLsb' 0 12

/-- R84: a register field names R0 to R7 by its unsigned value. -/
def regOfField (f : BitVec 3) : Reg :=
  match f.toNat with
  | 0 => .r0 | 1 => .r1 | 2 => .r2 | 3 => .r3
  | 4 => .r4 | 5 => .r5 | 6 => .r6 | _ => .r7

/-- The inverse of `regOfField`. -/
def fieldOfReg : Reg → BitVec 3
  | .r0 => 0 | .r1 => 1 | .r2 => 2 | .r3 => 3
  | .r4 => 4 | .r5 => 5 | .r6 => 6 | .r7 => 7

/-! ### The decoder (R93) -/

/-- R93's procedure, arm for arm. TRAP is its generic row. -/
def decodeFields (ir : Word) : Instr :=
  let ra := regOfField (fieldRA ir)
  let rb := regOfField (fieldRB ir)
  let rc := regOfField (fieldRC ir)
  match slotOf (opcodeField ir) with
  | .br => .br (ir.getLsbD 11) (ir.getLsbD 10) (ir.getLsbD 9) (fieldOffset9 ir)
  | .add => bif ir.getLsbD 5 then .addImm ra rb (fieldImm5 ir) else .addReg ra rb rc
  | .ld => .ld ra (fieldOffset9 ir)
  | .st => .st ra (fieldOffset9 ir)
  | .jsr => bif ir.getLsbD 11 then .jsr (fieldOffset11 ir) else .jsrr rb
  | .and => bif ir.getLsbD 5 then .andImm ra rb (fieldImm5 ir) else .andReg ra rb rc
  | .ldr => .ldr ra rb (fieldOffset6 ir)
  | .str => .str ra rb (fieldOffset6 ir)
  | .rti => .rti (fieldUnused12 ir)
  | .not => .notReg ra rb
  | .ldi => .ldi ra (fieldOffset9 ir)
  | .sti => .sti ra (fieldOffset9 ir)
  | .jmp => .jmp rb
  | .res => .res (fieldUnused12 ir)
  | .lea => .lea ra (fieldOffset9 ir)
  | .trap => .trap (fieldVector ir)

/-- R201: the row of the opcode table that a vector's TRAP is. -/
def refineTrap (v : Byte) : Instr :=
  match routineOf v with
  | some .getc => .getc
  | some .out => .out
  | some .puts => .puts
  | some .inEcho => .inEcho
  | some .putsp => .putsp
  | some .halt => .halt
  | none => .trapUnlisted v

/-- The generic TRAP row gives way to the row that refines it; every other instruction stays. -/
def refine : Instr → Instr
  | .trap v => refineTrap v
  | i => i

/-- R81: the decoder. Total and pure: "every one of the 65,536 words decodes to exactly one row". -/
def decode (ir : Word) : Instr := refine (decodeFields ir)

/-- Why a byte string is not an instruction. An instruction is one whole word (R80), so the only
reason is that there is no whole word. -/
inductive DecodeError where
  /-- Fewer than two bytes are left. -/
  | incompleteWord
  deriving DecidableEq, Repr

/-- Decoding from an external byte stream, whose words are big-endian (R60, R275): one instruction
and the bytes after it. The machine itself fetches words and never uses this. -/
def decodeBytes : List Byte → Except DecodeError (Instr × List Byte)
  | hi :: lo :: rest => .ok (decode (hi ++ lo), rest)
  | _ => .error .incompleteWord

/-- The word an opcode-table row of `nbits` bits with bits `w` stands for; bits at and above `nbits` are 0. -/
def tableWord (nbits w : Nat) : Word := BitVec.ofNat 16 (w % 2 ^ nbits)

/-- The decoder on a word numbered as spec/opcode_table.json numbers it. No instruction is longer than
one word (R80), so more than 16 bits are no instruction. -/
def decodeTableWord (nbits w : Nat) : Option Instr :=
  if nbits ≤ 16 then some (decode (tableWord nbits w)) else none

/-! ### The encoder (R88, R93): each field at its place, 0 in unused bits -/

/-- The three condition bits of BR, n highest (R87). -/
def condField (n z p : Bool) : BitVec 3 := BitVec.ofBool n ++ BitVec.ofBool z ++ BitVec.ofBool p

/-- R80, R88: an instruction word: its slot's opcode value in bits 15 to 12 over the twelve bits below. -/
def wordOf (t : Slot) (body : BitVec 12) : Word := params.opmap t ++ body

/-- R88's OPR format below the opcode. -/
def bodyOPR (dr sr1 sr2 : Reg) : BitVec 12 := fieldOfReg dr ++ fieldOfReg sr1 ++ 0#3 ++ fieldOfReg sr2
/-- R88's OPI format below the opcode: bit 5 is set. -/
def bodyOPI (dr sr1 : Reg) (imm : BitVec 5) : BitVec 12 := fieldOfReg dr ++ fieldOfReg sr1 ++ 1#1 ++ imm
/-- R88's PC9 format below the opcode. -/
def bodyPC9 (r : Reg) (off : BitVec 9) : BitVec 12 := fieldOfReg r ++ off
/-- R88's BO6 format below the opcode. -/
def bodyBO6 (r base : Reg) (off : BitVec 6) : BitVec 12 := fieldOfReg r ++ fieldOfReg base ++ off
/-- R88's NOT format below the opcode. -/
def bodyNOT (dr sr1 : Reg) : BitVec 12 := fieldOfReg dr ++ fieldOfReg sr1 ++ 0#6
/-- R88's JMP and JSRR formats below the opcode: bits 11 to 9 are 0, which for JSRR is also its form bit. -/
def bodyBase (base : Reg) : BitVec 12 := 0#3 ++ fieldOfReg base ++ 0#6
/-- R88's TRAP format below the opcode. -/
def bodyTRAP (v : Byte) : BitVec 12 := 0#4 ++ v

/-- The word of an instruction (R93). -/
def encode : Instr → Word
  | .br n z p off => wordOf .br (condField n z p ++ off)
  | .addReg dr sr1 sr2 => wordOf .add (bodyOPR dr sr1 sr2)
  | .addImm dr sr1 imm => wordOf .add (bodyOPI dr sr1 imm)
  | .ld dr off => wordOf .ld (bodyPC9 dr off)
  | .st sr off => wordOf .st (bodyPC9 sr off)
  | .jsr off => wordOf .jsr (1#1 ++ off)
  | .jsrr base => wordOf .jsr (bodyBase base)
  | .andReg dr sr1 sr2 => wordOf .and (bodyOPR dr sr1 sr2)
  | .andImm dr sr1 imm => wordOf .and (bodyOPI dr sr1 imm)
  | .ldr dr base off => wordOf .ldr (bodyBO6 dr base off)
  | .str sr base off => wordOf .str (bodyBO6 sr base off)
  | .rti u => wordOf .rti u
  | .notReg dr sr1 => wordOf .not (bodyNOT dr sr1)
  | .ldi dr off => wordOf .ldi (bodyPC9 dr off)
  | .sti sr off => wordOf .sti (bodyPC9 sr off)
  | .jmp base => wordOf .jmp (bodyBase base)
  | .res u => wordOf .res u
  | .lea dr off => wordOf .lea (bodyPC9 dr off)
  | .trap v => wordOf .trap (bodyTRAP v)
  | .getc => wordOf .trap (bodyTRAP (params.trapvec .getc))
  | .out => wordOf .trap (bodyTRAP (params.trapvec .out))
  | .puts => wordOf .trap (bodyTRAP (params.trapvec .puts))
  | .inEcho => wordOf .trap (bodyTRAP (params.trapvec .inEcho))
  | .putsp => wordOf .trap (bodyTRAP (params.trapvec .putsp))
  | .halt => wordOf .trap (bodyTRAP (params.trapvec .halt))
  | .trapUnlisted v => wordOf .trap (bodyTRAP v)

end Sys2Proof
end

