-- ==== Sys2Proof/Machine/State.lean ====
section
/-! DEFINITION. The state of the machine as plain data, the reasons a step can stop, and the state
after reset. The five components of 10_state.md R20 are `regs`, `pc`, `cond`, `mem` and `run`; the
sixth field, `iob`, is the model's own: the environment's side of the I/O Bridge (00_scope.md R9). -/

namespace Sys2Proof.Machine

open Sys2Proof.Config

/-- R21: the eight general registers. -/
structure Regs where
  r0 : Word
  r1 : Word
  r2 : Word
  r3 : Word
  r4 : Word
  r5 : Word
  r6 : Word
  r7 : Word
  deriving DecidableEq, Repr

/-- R30: the condition-flag register: exactly one of POSITIVE, ZERO, NEGATIVE. -/
inductive Cond where
  | p | z | n
  deriving DecidableEq, Repr

/-- One listed word of memory: its address and the word. The addressable unit is the 16-bit word and
memory "has no bytes" (R50, R60), so a cell holds a word (assumption 7). -/
abbrev WordCell := Nat × Word

/-- R50: the memory array, as the list of the words that differ from what an unlisted address reads
as, addresses rising (`Memory.wf` in Machine/Ops.lean). -/
abbrev Memory := List WordCell

/-- R230, R231: which aborting opcode was dispatched. -/
inductive AbortOpcode where
  | rti | res
  deriving DecidableEq, Repr

/-- R240: the closed enumeration of fault reasons, each with the info R240 and D25 record. -/
inductive FaultRecord where
  /-- `UnknownOpcodeFault`: the opcode, the instruction word, the address it was fetched from. -/
  | unknownOpcode (opcode : AbortOpcode) (ir pc0 : Word)
  /-- `UnknownTrapVector`: the vector and the address of the TRAP. -/
  | unknownTrapVector (vector : Byte) (pc0 : Word)
  /-- `IOFault`: the bridge's report and the address of the instruction. -/
  | ioFault (report : IOReport) (pc0 : Word)
  deriving DecidableEq, Repr

/-- R35, R117: the run state. `boot` is R117's row "(boot)": R271 has `run` "not yet `RUNNING`" after
reset and R276 has it never become so while no image is loaded (assumption 4). -/
inductive RunState where
  | boot
  | running
  | halted
  | faulted (f : FaultRecord)
  deriving DecidableEq, Repr

/-- How far the environment has come with its free answers to one question: the run it is in
(`Config.freeKeyRun`, `Config.freeCharRun`) and how many answers of that run it has given. -/
structure FreeCursor where
  run : Nat
  pos : Nat
  deriving DecidableEq, Repr

/-- The environment's side of the I/O Bridge (R9), the model's own fields. The two lists are the
answers the environment has so far fixed, oldest first; a theorem about every state is about every
answer (R58, R211; assumption 20). -/
structure Bridge where
  /-- The coming answers of `key_available()`. -/
  keys : List Bool
  /-- The coming answers of `read_char()`: the input of the machine (R211). -/
  input : List ReadResult
  /-- The bytes passed to `write_char` so far, in call order: the output of the machine (R210). -/
  output : List Byte
  /-- How many bytes of `output` the last `flush()` made visible (R9, R210). -/
  flushed : Nat
  /-- Where the free answers of `key_available()` stand (assumption 2). -/
  keyCursor : FreeCursor
  /-- Where the free answers of the poll's `read_char()` stand (assumption 3). -/
  charCursor : FreeCursor
  deriving DecidableEq, Repr

/-- R20: the state of the machine. -/
structure State where
  /-- R21: `x[0]` to `x[7]`. -/
  regs : Regs
  /-- R26: the program counter, a word address. -/
  pc : Word
  /-- R30: the condition flag. -/
  cond : Cond
  /-- R50: `M`. -/
  mem : Memory
  /-- R35: the run state. -/
  run : RunState
  /-- The I/O Bridge as the environment has set it up (R9); no component of R20. -/
  iob : Bridge
  deriving DecidableEq, Repr

/-- Why no step is taken. The faults OF the machine (R240) are not here: R241 makes each a next
state with `run = FAULTED`. -/
inductive Fault where
  /-- Raised by `step` while no image is loaded: the machine "takes no step" (R276). Safe. -/
  | notBooted
  /-- Raised by `step` in `HALTED`: "no step is enabled" (R117). Safe. -/
  | halted
  /-- Raised by `step` in `FAULTED`: "no further step is enabled, ever" (R241). Safe. -/
  | faulted
  /-- Raised by PUTS and PUTSP whose scan meets no zero word and no failing poll, however long it goes on:
  R261's hang, a step that never completes (U7). Safe: assumption 9. -/
  | stringHang
  deriving DecidableEq, Repr

/-- Why an instruction has no meaning. -/
inductive Refusal where
  /-- Raised by `exec` for an instruction that is not modelled; no arm uses it. Safe. -/
  | notModelled (mnemonic : String)
  deriving DecidableEq, Repr

/-- The outcome of a step or of an instruction's meaning. -/
abbrev Result := Host.Outcome State Fault Refusal

/-- R39: all eight registers 0x0000. -/
def Regs.zero : Regs := ⟨0, 0, 0, 0, 0, 0, 0, 0⟩

/-- The bridge before the environment has answered or received anything (DESIGN CHOICE, assumption 5). -/
def Bridge.idle : Bridge :=
  { keys := [], input := [], output := [], flushed := 0, keyCursor := ⟨0, 0⟩, charCursor := ⟨0, 0⟩ }

/-- R39, R271: the reset state. No image is loaded yet, so `run` is "not yet `RUNNING`". -/
def State.reset : State :=
  { regs := Regs.zero, pc := params.pcStart, cond := .z, mem := [], run := .boot, iob := Bridge.idle }

end Sys2Proof.Machine
end

