-- ==== Sys2Proof/Machine/Flags.lean ====
section
/-! DEFINITION. The condition flag: the flag of a value (10_state.md R31) and the branch test
(42_control.md R150). -/

namespace Sys2Proof.Machine

/-- R31: the flag of a 16-bit word. -/
def flagOf (v : Word) : Cond :=
  if v = 0 then .z else bif v.msb then .n else .p

/-- R30: the one-hot mask of a flag (D4). PRESUMED, assumption 1. -/
def condMask : Cond → BitVec 3
  | .n => 0b100
  | .z => 0b010
  | .p => 0b001

/-- R150: `(ir[11:9] & mask) != 0`, with n, z, p the bits 11, 10, 9. -/
def condTest (n z p : Bool) (c : Cond) : Bool :=
  (BitVec.ofBool n ++ BitVec.ofBool z ++ BitVec.ofBool p) &&& condMask c != 0#3

end Sys2Proof.Machine
end

