-- ==== Sys2Proof/Machine/Ops.lean ====
section
/-! DEFINITION. The named operations over registers, memory, the I/O Bridge and the run state: the
pseudocode primitives of 00_scope.md R14, and `raise`. There is no return from an exception beside it:
the machine has none (60_exceptions.md R252) and RTI raises (R230). -/

namespace Sys2Proof.Machine

open Sys2Proof.Config

/-! ### Registers -/

/-- Read one register of the file. -/
def Regs.get (g : Regs) : Reg → Word
  | .r0 => g.r0 | .r1 => g.r1 | .r2 => g.r2 | .r3 => g.r3
  | .r4 => g.r4 | .r5 => g.r5 | .r6 => g.r6 | .r7 => g.r7

/-- Write one register of the file. -/
def Regs.set (g : Regs) (r : Reg) (v : Word) : Regs :=
  match r with
  | .r0 => { g with r0 := v } | .r1 => { g with r1 := v }
  | .r2 => { g with r2 := v } | .r3 => { g with r3 := v }
  | .r4 => { g with r4 := v } | .r5 => { g with r5 := v }
  | .r6 => { g with r6 := v } | .r7 => { g with r7 := v }

/-- R21: `x[i]`. -/
def State.reg (s : State) (r : Reg) : Word := s.regs.get r

/-- R23: `x[i] <- v`: write the register and set `cond` from the value, as one action. -/
def State.setReg (s : State) (r : Reg) (v : Word) : State :=
  { s with regs := s.regs.set r v, cond := flagOf v }

/-- Write a register and leave `cond`: only for the link write under `LINK_WRITE_SETS_FLAGS = false` (D12). -/
def State.setRegQuiet (s : State) (r : Reg) (v : Word) : State :=
  { s with regs := s.regs.set r v }

/-- R27: `pc <- target`; nothing else changes. -/
def State.setPc (s : State) (target : Word) : State := { s with pc := target }

/-- R112: the PC increment of the fetch, modulo 65,536. -/
def State.advance (s : State) : State := s.setPc (s.pc + 1)

/-- The address the executing instruction was fetched from: `pc0 = pc - 1` inside a handler (R26). -/
def State.pc0 (s : State) : Word := s.pc - 1

/-! ### The memory array -/

/-- R39: what an address that is not listed reads as: memory is zero-initialized. -/
def Memory.unlisted : Word := 0

/-- `M[a]`. -/
def Memory.read : Memory → Nat → Word
  | [], _ => Memory.unlisted
  | (k, w) :: m, a => if k = a then w else Memory.read m a

/-- Take out every entry of one address. -/
def Memory.erase : Memory → Nat → Memory
  | [], _ => []
  | (k, w) :: m, a => if k = a then Memory.erase m a else (k, w) :: Memory.erase m a

/-- Put an entry in its place by address. -/
def Memory.insert : Memory → Nat → Word → Memory
  | [], a, v => [(a, v)]
  | (k, w) :: m, a, v => if a < k then (a, v) :: (k, w) :: m else (k, w) :: Memory.insert m a v

/-- `M[a] := v`, keeping the canonical form: the value an unlisted address reads as is not listed. -/
def Memory.write (m : Memory) (a : Nat) (v : Word) : Memory :=
  if v = Memory.unlisted then Memory.erase m a else Memory.insert (Memory.erase m a) a v

/-- The canonical form from address `lo` on: addresses strictly rising, inside the address space, and
no entry equal to what an unlisted address reads as. -/
def Memory.wfFrom : Nat → Memory → Bool
  | _, [] => true
  | lo, (k, w) :: m => decide (lo ≤ k) && decide (k < 65536) && decide (w ≠ Memory.unlisted) && Memory.wfFrom (k + 1) m

/-- The canonical form of a memory: equal memories are equal lists. -/
def Memory.wf (m : Memory) : Bool := Memory.wfFrom 0 m

/-- `M[a]` of a state, with no side effect (R14). -/
def State.peek (s : State) (a : Word) : Word := Memory.read s.mem a.toNat

/-- `M[a] := v` of a state, with no side effect (R14). -/
def State.poke (s : State) (a v : Word) : State := { s with mem := Memory.write s.mem a.toNat v }

/-! ### The I/O Bridge (R9) -/

/-- `zext_16` of a byte (R13). -/
def zext16 (b : Byte) : Word := b.setWidth 16

/-- The next free answer is a plain one of its run. -/
def FreeCursor.plain (runs : Nat → Option Nat) (c : FreeCursor) : Bool :=
  match runs c.run with
  | some n => decide (c.pos < n)
  | none => true

/-- How many plain answers the run has still to give; `none`: it never ends. -/
def FreeCursor.left (runs : Nat → Option Nat) (c : FreeCursor) : Option Nat :=
  (runs c.run).map (· - c.pos)

/-- Behind the next free answer: on in the run, or at the start of the next one. -/
def FreeCursor.next (runs : Nat → Option Nat) (c : FreeCursor) : FreeCursor :=
  bif c.plain runs then ⟨c.run, c.pos + 1⟩ else ⟨c.run + 1, 0⟩

/-- The next free answer of the poll's `read_char()`. -/
def FreeCursor.char (c : FreeCursor) : ReadResult :=
  bif c.plain freeCharRun then .byte (BitVec.ofNat 8 ((freeChar c.run c.pos).val + 1))
  else match freeCharEnd c.run with
    | none => .byte 0x00
    | some r => .fail r

/-- `key_available()`: the environment's next answer; where it has fixed none, a free one. -/
def State.askKey (s : State) : Bool × State :=
  match s.iob.keys with
  | k :: ks => (k, { s with iob := { s.iob with keys := ks } })
  | [] => (s.iob.keyCursor.plain freeKeyRun,
      { s with iob := { s.iob with keyCursor := s.iob.keyCursor.next freeKeyRun } })

/-- `read_char()` of GETC and IN: the environment's next answer; `none` while there is none, for the
call blocks (R203, D20). -/
def State.readChar (s : State) : Option (ReadResult × State) :=
  match s.iob.input with
  | c :: cs => some (c, { s with iob := { s.iob with input := cs } })
  | [] => none

/-- `read_char()` of the poll, after a true `key_available()`: it answers promptly (D29), so where the
environment has fixed no answer it is a free one. -/
def State.pollChar (s : State) : ReadResult × State :=
  match s.iob.input with
  | c :: cs => (c, { s with iob := { s.iob with input := cs } })
  | [] => (s.iob.charCursor.char,
      { s with iob := { s.iob with charCursor := s.iob.charCursor.next freeCharRun } })

/-- `write_char` for each byte, in order (R210). -/
def State.writeChars (s : State) (bs : List Byte) : State :=
  { s with iob := { s.iob with output := s.iob.output ++ bs } }

/-- `flush()`: every byte written so far is to be visible; no component of R20 changes (R9, D17). -/
def State.flush (s : State) : State :=
  { s with iob := { s.iob with flushed := s.iob.output.length } }

/-! ### The access primitives -/

/-- What a memory read comes to: the word, or the I/O fault the poll met; each with the state then. -/
inductive Access where
  | done (w : Word) (s : State)
  | failed (r : IOReport) (s : State)

/-- R55: the keyboard poll. `none` is a poll that went well. -/
def State.poll (s : State) : Option IOReport × State :=
  match s.askKey with
  | (true, s1) =>
    match (s1.poke params.kbsr 0x8000).pollChar with
    | (.byte b, s2) => (none, s2.poke params.kbdr (zext16 b))
    | (.fail r, s2) => (some r, s2)
  | (false, s1) => (none, s1.poke params.kbsr 0x0000)

/-- R55: `MemRead(addr, 1)`. -/
def memRead (a : Word) (s : State) : Access :=
  if a = params.kbsr then
    match s.poll with
    | (none, s1) => .done (s1.peek a) s1
    | (some r, s1) => .failed r s1
  else .done (s.peek a) s

/-- R56: `MemWrite(addr, 1, v)`: a plain store at every address. -/
def memWrite (a v : Word) (s : State) : State := s.poke a v

/-- R111: the instruction fetch, an ordinary read at `pc`. -/
def fetch (s : State) : Access := memRead s.pc s

/-! ### Faults, the link write, waiting -/

/-- R241: `raise F(info)`: the step ends, its earlier writes stay, `run := FAULTED(F, info)`. The one
way an exception is taken on this machine: nothing is saved and no handler is entered. -/
def raise (f : FaultRecord) (s : State) : Result := .next { s with run := .faulted f }

/-- R245: `raise IOFault(report)` inside a handler. -/
def raiseIO (r : IOReport) (s : State) : Result := raise (.ioFault r s.pc0) s

/-- R155, R156, R200: `x[7] <- pc`; whether it sets `cond` is parameter `LINK_WRITE_SETS_FLAGS` (R157). -/
def linkWrite (setsFlags : Bool) (s : State) : State :=
  bif setsFlags then s.setReg .r7 s.pc else s.setRegQuiet .r7 s.pc

/-- The link write of this machine. -/
def link (s : State) : State := linkWrite params.linkWriteSetsFlags s

/-- R203, D20: the handler's step does not complete: the state is that before the step, the PC at the
instruction again. (The fetch of a TRAP never polls, so the increment is all there is to take back.) -/
def State.hold (s : State) : State := s.setPc s.pc0

end Sys2Proof.Machine
end

