-- ==== Sys2Proof/Machine/Operands.lean ====
section
/-! DEFINITION. The operand forms: sign extension (30_encoding.md R86) and the addressing modes
(43_load_store.md R170). -/

namespace Sys2Proof.Machine

/-- R86: `sext_N(f)` to 16 bits, by the rule's own formula: the bits above position N-1 are set when
bit N-1 of the field is, and clear otherwise. -/
def sext {n : Nat} (f : BitVec n) : Word :=
  if f.getLsbD (n - 1) then f.setWidth 16 ||| (0xFFFF#16 <<< n) else f.setWidth 16

/-- R170, PC-relative: `pc + sext_9(ir[8:0])`, with the incremented PC (R112). -/
def pcRelative (off : BitVec 9) (s : State) : Word := s.pc + sext off

/-- R170, base plus offset: `x[ir[8:6]] + sext_6(ir[5:0])`. -/
def baseOffset (base : Reg) (off : BitVec 6) (s : State) : Word := s.reg base + sext off

end Sys2Proof.Machine
end

