-- ==== Sys2Proof/Machine/Abort.lean ====
section
/-! DEFINITION. The two aborting opcodes RTI and RES (45_unknown_opcodes.md). -/

namespace Sys2Proof.Machine

/-- R230: `raise UnknownOpcodeFault(RTI, ir, pc0)`. -/
def execRti (unused : BitVec 12) (s : State) : Result :=
  raise (.unknownOpcode .rti (encode (.rti unused)) s.pc0) s

/-- R231: `raise UnknownOpcodeFault(RES, ir, pc0)`. -/
def execRes (unused : BitVec 12) (s : State) : Result :=
  raise (.unknownOpcode .res (encode (.res unused)) s.pc0) s

end Sys2Proof.Machine
end

