-- ==== Sys2Proof/Machine/Control.lean ====
section
/-! DEFINITION. The control transfers BR, JMP, JSR, JSRR (42_control.md). -/

namespace Sys2Proof.Machine

/-- R150. -/
def execBr (n z p : Bool) (off : BitVec 9) (s : State) : Result :=
  .next (bif condTest n z p s.cond then s.setPc (pcRelative off s) else s)

/-- R153. -/
def execJmp (base : Reg) (s : State) : Result := .next (s.setPc (s.reg base))

/-- R155: the link write, then the jump from the same incremented PC. -/
def execJsr (off : BitVec 11) (s : State) : Result :=
  .next ((link s).setPc (s.pc + sext off))

/-- R156: the base register is read AFTER the link write. -/
def execJsrr (base : Reg) (s : State) : Result :=
  .next ((link s).setPc ((link s).reg base))

end Sys2Proof.Machine
end

