-- ==== Sys2Proof/Machine/LoadStore.lean ====
section
/-! DEFINITION. The loads and stores (43_load_store.md). A read of KBSR polls (R55) and may raise
IOFault (R245). -/

namespace Sys2Proof.Machine

/-- The operand read of a load and its register write (R171 to R173). -/
def loadInto (dr : Reg) (ea : Word) (s : State) : Result :=
  match memRead ea s with
  | .done w s1 => .next (s1.setReg dr w)
  | .failed r s1 => raiseIO r s1

/-- R171. -/
def execLd (dr : Reg) (off : BitVec 9) (s : State) : Result := loadInto dr (pcRelative off s) s

/-- R172: the pointer read, then the operand read. -/
def execLdi (dr : Reg) (off : BitVec 9) (s : State) : Result :=
  match memRead (pcRelative off s) s with
  | .done ea s1 => loadInto dr ea s1
  | .failed r s1 => raiseIO r s1

/-- R173. -/
def execLdr (dr base : Reg) (off : BitVec 6) (s : State) : Result := loadInto dr (baseOffset base off s) s

/-- R174: the address itself; no access. -/
def execLea (dr : Reg) (off : BitVec 9) (s : State) : Result := .next (s.setReg dr (pcRelative off s))

/-- R175. -/
def execSt (sr : Reg) (off : BitVec 9) (s : State) : Result :=
  .next (memWrite (pcRelative off s) (s.reg sr) s)

/-- R176: the pointer read, then the store. -/
def execSti (sr : Reg) (off : BitVec 9) (s : State) : Result :=
  match memRead (pcRelative off s) s with
  | .done ea s1 => .next (memWrite ea (s1.reg sr) s1)
  | .failed r s1 => raiseIO r s1

/-- R177. -/
def execStr (sr base : Reg) (off : BitVec 6) (s : State) : Result :=
  .next (memWrite (baseOffset base off s) (s.reg sr) s)

end Sys2Proof.Machine
end

