-- ==== Sys2Proof/Machine/Operate.lean ====
section
/-! DEFINITION. The operate instructions ADD, AND, NOT (41_operate.md). Each meaning is the handler: it
runs after the fetch and the PC increment (R115). -/

namespace Sys2Proof.Machine

/-- R132. -/
def execAddReg (dr sr1 sr2 : Reg) (s : State) : Result :=
  .next (s.setReg dr (s.reg sr1 + s.reg sr2))

/-- R133. -/
def execAddImm (dr sr1 : Reg) (imm : BitVec 5) (s : State) : Result :=
  .next (s.setReg dr (s.reg sr1 + sext imm))

/-- R134. -/
def execAndReg (dr sr1 sr2 : Reg) (s : State) : Result :=
  .next (s.setReg dr (s.reg sr1 &&& s.reg sr2))

/-- R135: the immediate is sign-extended (90_conflicts.md C8). -/
def execAndImm (dr sr1 : Reg) (imm : BitVec 5) (s : State) : Result :=
  .next (s.setReg dr (s.reg sr1 &&& sext imm))

/-- R136. -/
def execNot (dr sr1 : Reg) (s : State) : Result :=
  .next (s.setReg dr (~~~ (s.reg sr1)))

end Sys2Proof.Machine
end

