-- ==== Sys2Proof/Machine/TrapIo.lean ====
section
/-! DEFINITION. TRAP and its built-in routines (44_trap_io.md). Each routine runs inside the step of
its TRAP, on the state the link write left (R200, R202). -/

namespace Sys2Proof.Machine

open Sys2Proof.Config

/-! ### The routines, on the state `s` after the link write

`before` is the state before the handler, to which a routine that must wait goes back (R203, D20). -/

/-- R203: GETC. -/
def routineGetc (before s : State) : Result :=
  match s.readChar with
  | some (.byte c, s1) => .next (s1.setReg .r0 (zext16 c))
  | some (.fail r, s1) => raiseIO r s1
  | none => .next before.hold

/-- R204: OUT. -/
def routineOut (s : State) : Result :=
  .next (s.writeChars [(s.reg .r0).setWidth 8]).flush

/-- R205: the character PUTS writes for a word that is no terminator: its low byte. -/
def putsBytes (w : Word) : List Byte := [w.extractLsb' 0 8]

/-- R207: the characters PUTSP writes for a word: the low byte, then the high byte unless it is zero. -/
def putspBytes (w : Word) : List Byte :=
  if w.extractLsb' 8 8 = 0#8 then [w.extractLsb' 0 8] else [w.extractLsb' 0 8, w.extractLsb' 8 8]

/-- What a string scan comes to. -/
inductive Scan where
  /-- A zero word was read. -/
  | ended (s : State)
  /-- A poll on the way failed. -/
  | failed (r : IOReport) (s : State)
  /-- Nothing has ended the scan among the words read. -/
  | unended

/-- R205, R207: the loop of PUTS and PUTSP over at most `fuel` words from `a`: read through MemRead
(R57), stop at a zero word, else write its characters and go on at `a + 1`, modulo 65,536. -/
def scan (bytes : Word → List Byte) : Nat → Word → State → Scan
  | 0, _, _ => .unended
  | fuel + 1, a, s =>
    match memRead a s with
    | .failed r s1 => .failed r s1
    | .done w s1 => if w = 0 then .ended s1 else scan bytes fuel (a + 1) (s1.writeChars (bytes w))

/-- How many polls in a row can pass, at the most, before one ends a string, where any ever does: for each
question of the poll the answers that are fixed and the plain ones left in its free run. -/
def pollBudget (s : State) : Nat :=
  s.iob.keys.length + (s.iob.keyCursor.left freeKeyRun).getD 0 +
    (s.iob.input.length + (s.iob.charCursor.left freeCharRun).getD 0)

/-- How many words a scan reads before it is R205's hang. A scan polls once in each round of memory, and
past `pollBudget` polls every poll is as the one before, so a scan that two rounds more have not ended is
ended by nothing (assumption 9). -/
def scanFuel (s : State) : Nat := 65536 * (pollBudget s + 2)

/-- R205, R207: the whole routine. -/
def writeString (bytes : Word → List Byte) (s : State) : Result :=
  match scan bytes (scanFuel s) (s.reg .r0) s with
  | .ended s1 => .next s1.flush
  | .failed r s1 => raiseIO r s1
  | .unended => .fault .stringHang

/-- R205: PUTS. -/
def routinePuts (s : State) : Result := writeString putsBytes s

/-- R207: PUTSP. -/
def routinePutsp (s : State) : Result := writeString putspBytes s

/-- R206: the prompt of IN and its flush. -/
def State.promptOut (s : State) : State := (s.writeChars params.inPrompt).flush

/-- R206: IN. While no character has come its step is not complete and no state shows anything of it, the
prompt included (R8, D20, D21; assumption 6). -/
def routineIn (before s : State) : Result :=
  match s.promptOut.readChar with
  | some (.byte c, s1) => .next ((s1.writeChars [c]).flush.setReg .r0 (zext16 c))
  | some (.fail r, s1) => raiseIO r s1
  | none => .next before.hold

/-- R206, R212: what the bridge has been given where the read of an IN on `s` blocks: "the prompt has already
been written when the read blocks". It is the environment's view of a step that is under way, and in no
state of the machine (R8). -/
def bridgeWhileInBlocks (s : State) : Bridge := (link s).promptOut.iob

/-- R208: HALT. -/
def routineHalt (s : State) : Result :=
  .next { (s.writeChars params.haltMessage).flush with run := .halted }

/-- R209: a vector that selects no routine, under either policy. -/
def routineUnlisted (policy : TrapPolicy) (v : Byte) (s : State) : Result :=
  match policy with
  | .fault => raise (.unknownTrapVector v s.pc0) s
  | .nop => .next s

/-- R201: the routine of a vector. -/
def routine (v : Byte) (before s : State) : Result :=
  match routineOf v with
  | some .getc => routineGetc before s
  | some .out => routineOut s
  | some .puts => routinePuts s
  | some .inEcho => routineIn before s
  | some .putsp => routinePutsp s
  | some .halt => routineHalt s
  | none => routineUnlisted params.unknownTrapPolicy v s

/-! ### The meanings -/

/-- R200: the generic row: the link write, then the routine of the vector. -/
def execTrap (v : Byte) (s : State) : Result := routine v s (link s)

/-- R203. -/
def execGetc (s : State) : Result := routineGetc s (link s)

/-- R204. -/
def execOut (s : State) : Result := routineOut (link s)

/-- R205. -/
def execPuts (s : State) : Result := routinePuts (link s)

/-- R206. -/
def execIn (s : State) : Result := routineIn s (link s)

/-- R207. -/
def execPutsp (s : State) : Result := routinePutsp (link s)

/-- R208. -/
def execHalt (s : State) : Result := routineHalt (link s)

/-- R209. -/
def execTrapUnlisted (v : Byte) (s : State) : Result :=
  routineUnlisted params.unknownTrapPolicy v (link s)

end Sys2Proof.Machine
end

