-- ==== Sys2Proof/Machine/Step.lean ====
section
/-! DEFINITION. The step (40_fetch_dispatch.md R110 to R117): fetch, PC increment, decode, dispatch. -/

namespace Sys2Proof.Machine

/-- R115: one step of a RUNNING machine. In the other run states no step is enabled (R117). -/
def step (s : State) : Host.Outcome State Fault Refusal :=
  match s.run with
  | .boot => .fault .notBooted
  | .halted => .fault .halted
  | .faulted _ => .fault .faulted
  | .running =>
    match fetch s with
    | .done ir s1 => exec (decode ir) s1.advance
    | .failed r s1 => raise (.ioFault r s.pc) s1

/-- `s` with the instruction `w` where the next step fetches: the word stored at `pc` and the machine
RUNNING, which is what loading an image at `pc` comes to (R275, R117; assumption 4). (With
`pc = KBSR` no word can be placed: the fetch polls and reads the status word, R116.) -/
def State.withFetchWord (s : State) (nbits w : Nat) : State :=
  { s.poke s.pc (tableWord nbits w) with run := .running }

end Sys2Proof.Machine
end

