-- ==== Sys2Proof/Machine/Loader.lean ====
section
/-! DEFINITION. What the host may do to the machine (00_scope.md R9): load images and start it, before
the first step (70_reset_and_hazards.md R272 to R276), and answer the I/O Bridge's calls. -/

namespace Sys2Proof.Machine

open Sys2Proof.Config

/-- R275: why an image fails to load. (A stream that cannot be opened is no byte list.) -/
inductive ImageError where
  /-- "the origin cannot be read". -/
  | originUnreadable
  deriving DecidableEq, Repr

/-- R275: a word of an image, high byte first. -/
def imageWord (hi lo : Byte) : Word := hi ++ lo

/-- R275's loop: plain writes from address `a` on, until the words or the addresses run out; an odd
byte at the end is ignored (D24). -/
def loadWords : List Byte → Nat → State → State
  | hi :: lo :: rest, a, s =>
    if a ≤ 0xFFFF then loadWords rest (a + 1) (s.poke (BitVec.ofNat 16 a) (imageWord hi lo)) else s
  | _, _, s => s

/-- R275: `LoadImage`. Only memory changes. -/
def loadImage : List Byte → State → Except ImageError State
  | hi :: lo :: rest, s => .ok (loadWords rest (imageWord hi lo).toNat s)
  | _, _ => .error .originUnreadable

/-- R276: several images in the order given, a failed one left out; with it, how many loaded. -/
def loadImages : List (List Byte) → State → State × Nat
  | [], s => (s, 0)
  | b :: bs, s =>
    match loadImage b s with
    | .ok s1 => let (s2, n) := loadImages bs s1; (s2, n + 1)
    | .error _ => loadImages bs s

/-- R272, R276: boot from reset: RUNNING once at least one image has loaded; with none the machine
"never becomes `RUNNING`". -/
def boot (images : List (List Byte)) : State :=
  let (s, n) := loadImages images State.reset
  if n = 0 then s else { s with run := .running }

/-- R9: the environment fixes a further answer of `read_char()`. -/
def State.deliverChar (s : State) (c : ReadResult) : State :=
  { s with iob := { s.iob with input := s.iob.input ++ [c] } }

/-- R9: the environment fixes a further answer of `key_available()`. -/
def State.deliverKey (s : State) (k : Bool) : State :=
  { s with iob := { s.iob with keys := s.iob.keys ++ [k] } }

end Sys2Proof.Machine
end

