-- ==== Sys2Proof/Safety.lean ====
section
/-! DEFINITION. What counts as a safe run and as a good state. -/

namespace Sys2Proof.Safety

open Sys2Proof.Machine

/-- R241: a state that no fault of the machine has ended. "A faulted machine is not a halted machine." -/
def NotFaulted (s : State) : Prop := ∀ f, s.run ≠ .faulted f

/-- A safe run: no number of steps leads from `s` to a FAULTED state. -/
def SafeFrom (s : State) : Prop :=
  ∀ k t, Sys2Proof.core.run k s = .next t → NotFaulted t

/-- R119: the run from `s` ends normally: some number of steps leads to HALTED, "the only final state
of a run that ended normally". -/
def EndsNormally (s : State) : Prop :=
  ∃ k t, Sys2Proof.core.run k s = .next t ∧ t.run = .halted

/-- The invariant of the machine: memory is in its canonical form, and no more output is flushed than was
written. -/
structure Inv (s : State) : Prop where
  memory : Memory.wf s.mem = true
  flushed : s.iob.flushed ≤ s.iob.output.length

end Sys2Proof.Safety
end

