-- ==== Sys2Proof/WellFormed.lean ====
section
/-! DEFINITION. Which instructions and which parameters are well formed. Field widths are in the
types, so the checks on an instruction are only those that tell the refining TRAP rows apart. -/

namespace Sys2Proof

/-- The instructions the decoder answers.
* `trapUnlisted v`: the table's row applies "only when none of the six named-vector rows matches", so
  `v` must select no routine (R209).
* `trap v`: the generic row, which the other seven refine; no word is left to it (assumption 8). -/
def Instr.wellFormed : Instr → Bool
  | .trap _ => false
  | .trapUnlisted v => (Machine.routineOf v).isNone
  | _ => true

/-- The parameters a machine of this spec can have: `OPMAP` gives sixteen different values (R83),
`TRAPVEC` six (R201), and "`KBSR` and `KBDR` must be two different addresses" (R52). -/
def Config.Params.wellFormed (p : Config.Params) : Bool :=
  (Config.Slot.all.map p.opmap).Nodup && (Config.Routine.all.map p.trapvec).Nodup && p.kbsr != p.kbdr

end Sys2Proof
end

