-- ==== Sys2Proof/Certificates/Slice0/Obligations.lean ====
section
/-! DEFINITION. The statements for the provers. `exec` runs on the state after the fetch and the PC
increment (R115), so in a statement about `exec` the field `pc` of the state before is `pc0 + 1`. -/

namespace Sys2Proof.Claims

open Sys2Proof.Config Sys2Proof.Machine

/-! ### The words the statements use -/

/-- `a` plus a signed field, modulo 65,536 (R12, R86, R131). -/
def plusSigned {n : Nat} (a : Word) (f : BitVec n) : Word := BitVec.ofInt 16 ((a.toNat : Int) + f.toInt)

/-- R31: `c` is the flag of the word `v`. -/
def IsFlagOf (v : Word) (c : Cond) : Prop :=
  (c = .z ↔ v = 0) ∧ (c = .n ↔ 0x8000 ≤ v.toNat) ∧ (c = .p ↔ 0 < v.toNat ∧ v.toNat < 0x8000)

/-- Every word of memory reads the same. -/
def SameMemory (s t : State) : Prop := ∀ a, t.peek a = s.peek a

/-- Every word of memory but the two device words reads the same. -/
def SameButDevice (s t : State) : Prop :=
  ∀ a, a ≠ params.kbsr → a ≠ params.kbdr → t.peek a = s.peek a

/-- Register `d` holds `v`, the flag is that of `v`, and nothing else has changed (R23, R137). -/
structure WritesOnly (d : Reg) (v : Word) (s t : State) : Prop where
  value : t.reg d = v
  flag : IsFlagOf v t.cond
  others : ∀ r, r ≠ d → t.reg r = s.reg r
  pc : t.pc = s.pc
  memory : SameMemory s t
  run : t.run = s.run
  iob : t.iob = s.iob

/-- The word at `a` is `v`, and nothing else has changed (R56). -/
structure StoresOnly (a v : Word) (s t : State) : Prop where
  value : t.peek a = v
  others : ∀ b, b ≠ a → t.peek b = s.peek b
  regs : ∀ r, t.reg r = s.reg r
  cond : t.cond = s.cond
  pc : t.pc = s.pc
  run : t.run = s.run
  iob : t.iob = s.iob

/-- What TRAP's link write and a routine that writes no register leave: R7 is the incremented PC and
the flag that of R7, every other register, the PC and all of memory as before (R200, R202). -/
structure Linked (s t : State) : Prop where
  link : t.reg .r7 = s.pc
  flag : IsFlagOf s.pc t.cond
  others : ∀ r, r ≠ .r7 → t.reg r = s.reg r
  pc : t.pc = s.pc
  memory : SameMemory s t

/-- The step, on `s`, ended in `raise IOFault(r)` at a poll of a data read that left `s1` (R245): the report
and `pc0` are recorded, no register is written, the flag and the PC are kept, memory is as the poll left
it, with the status word set, and no word but the two device words differs from `s`. -/
structure FaultedIO (r : IOReport) (s s1 t : State) : Prop where
  run : t.run = .faulted (.ioFault r (s.pc - 1))
  regs : ∀ q, t.reg q = s.reg q
  cond : t.cond = s.cond
  pc : t.pc = s.pc
  memory : ∀ a, t.peek a = s1.peek a
  status : t.peek params.kbsr = 0x8000
  others : SameButDevice s t
  iob : t.iob = s1.iob

/-- The bytes of an image: the origin, then the words, each high byte first (R275). -/
def imageBytes (origin : Word) (ws : List Word) : List Byte :=
  (origin :: ws).flatMap fun w => [w.extractLsb' 8 8, w.extractLsb' 0 8]

/-- From `a` on lie the words `ws`, none zero, and then a zero word; none of them is the status word (R205). -/
def StringAt (s : State) (a : Word) (ws : List Word) : Prop :=
  ws.length < 65536 ∧ (∀ w ∈ ws, w ≠ 0) ∧
  (∀ k (h : k < ws.length), s.peek (a + BitVec.ofNat 16 k) = ws[k]) ∧
  s.peek (a + BitVec.ofNat 16 ws.length) = 0 ∧
  ∀ k ≤ ws.length, a + BitVec.ofNat 16 k ≠ params.kbsr

/-- TRAP's link write and its flag, with the other registers and the PC as before (R200); nothing is said of memory. -/
structure LinkWritten (s t : State) : Prop where
  link : t.reg .r7 = s.pc
  flag : IsFlagOf s.pc t.cond
  others : ∀ q, q ≠ .r7 → t.reg q = s.reg q
  pc : t.pc = s.pc

/-- From `a` on lie the words `ws`, none zero and none at KBSR, and the address behind them is KBSR. -/
def ReachesStatus (s : State) (a : Word) (ws : List Word) : Prop :=
  ws.length < 65536 ∧ (∀ w ∈ ws, w ≠ 0) ∧
  (∀ k (h : k < ws.length), s.peek (a + BitVec.ofNat 16 k) = ws[k] ∧ a + BitVec.ofNat 16 k ≠ params.kbsr) ∧
  a + BitVec.ofNat 16 ws.length = params.kbsr

/-- The characters PUTS (R205) or PUTSP (R207) writes for a word that is no terminator. -/
def stringBytes (i : Instr) (w : Word) : List Byte :=
  if i = .putsp ∧ 256 ≤ w.toNat then [BitVec.ofNat 8 w.toNat, BitVec.ofNat 8 (w.toNat / 256)]
  else [BitVec.ofNat 8 w.toNat]

/-- Nothing ends a string scan in its first `n` reads from `a` on: each MemRead gives a word, and none is zero. -/
def NothingEnds : Nat → Word → State → Prop
  | 0, _, _ => True
  | n + 1, a, s => ∃ w t, memRead a s = .done w t ∧ w ≠ 0 ∧ NothingEnds n (a + 1) t

/-- The register a load writes and the address of its operand read, where its pointer read is plain (R170). -/
def operandAddress (i : Instr) (s : State) : Option (Reg × Word) :=
  match i with
  | .ld dr off => some (dr, plusSigned s.pc off)
  | .ldr dr base off => some (dr, plusSigned (s.reg base) off)
  | .ldi dr off =>
    if plusSigned s.pc off = params.kbsr then none else some (dr, s.peek (plusSigned s.pc off))
  | _ => none

/-- The instructions that write no general register (R33). -/
def writesNoRegister : Instr → Bool
  | .br .. | .jmp .. | .st .. | .sti .. | .str .. | .rti .. | .res .. => true
  | _ => false

/-- The instructions whose routine leaves the flag of the link write (R33). -/
def keepsLinkFlag : Instr → Bool
  | .out | .puts | .putsp | .halt => true
  | _ => false

/-- The stores (R175 to R177). -/
def isStore : Instr → Bool
  | .st .. | .sti .. | .str .. => true
  | _ => false

/-- The rows of the TRAP opcode (R201). -/
def isTrap : Instr → Bool
  | .trap .. | .getc | .out | .puts | .inEcho | .putsp | .halt | .trapUnlisted .. => true
  | _ => false

/-- The instructions that may call `read_char`, to read a character or in a poll (R240, R245). -/
def mayReadCharacter : Instr → Bool
  | .ld .. | .ldi .. | .ldr .. | .sti .. | .getc | .puts | .inEcho | .putsp => true
  | _ => false

/-- The instructions that leave the PC at `pc0 + 1` whatever they do (R28). -/
def isSequential : Instr → Bool
  | .addReg .. | .addImm .. | .andReg .. | .andImm .. | .notReg .. | .ld .. | .ldi .. | .ldr .. | .lea ..
  | .st .. | .sti .. | .str .. | .out | .puts | .putsp | .halt | .trapUnlisted .. | .rti .. | .res .. => true
  | _ => false

/-- The instruction, on `s`, asks the environment nothing: no poll and no character (R283). The string
routines are left out. -/
def AsksNothing (i : Instr) (s : State) : Prop :=
  match i with
  | .ld _ off => plusSigned s.pc off ≠ params.kbsr
  | .ldr _ base off => plusSigned (s.reg base) off ≠ params.kbsr
  | .ldi _ off => plusSigned s.pc off ≠ params.kbsr ∧ s.peek (plusSigned s.pc off) ≠ params.kbsr
  | .sti _ off => plusSigned s.pc off ≠ params.kbsr
  | .trap _ | .getc | .inEcho | .puts | .putsp => False
  | _ => True

/-- The bits of an instruction word that R88's row of the instruction uses: all but its `x` bits (R89). -/
def usedBits : Instr → Word
  | .addReg .. | .andReg .. => 0b1111_111_111_1_00_111
  | .notReg .. => 0b1111_111_111_000000
  | .jmp .. => 0b1111_000_111_000000
  | .jsrr .. => 0b1111_1_00_111_000000
  | .rti .. | .res .. => 0b1111_000000000000
  | .trap .. | .getc | .out | .puts | .inEcho | .putsp | .halt | .trapUnlisted .. => 0b1111_0000_11111111
  | .br .. | .addImm .. | .andImm .. | .ld .. | .st .. | .jsr .. | .ldr .. | .str .. | .ldi .. | .sti ..
  | .lea .. => 0b1111_111111111111

/-- An instruction without the ignored bits that RTI and RES keep for their fault record (assumption 12). -/
def withoutIgnored : Instr → Instr
  | .rti _ => .rti 0
  | .res _ => .res 0
  | i => i

/-- `s` with other answers of the environment to come. -/
def withAnswers (s : State) (ks : List Bool) (cs : List ReadResult) (kc cc : FreeCursor) : State :=
  { s with iob := { s.iob with keys := ks, input := cs, keyCursor := kc, charCursor := cc } }

/-- `withAnswers` on the state of an outcome. -/
def Result.withAnswers (r : Result) (ks : List Bool) (cs : List ReadResult) (kc cc : FreeCursor) : Result :=
  match r with
  | .next t => .next (Claims.withAnswers t ks cs kc cc)
  | .fault f => .fault f
  | .refused f => .refused f

/-- The instruction the next step runs, where its fetch is plain: the word at the PC, decoded. -/
def Runs (s : State) (i : Instr) : Prop :=
  s.run = .running ∧ s.pc ≠ params.kbsr ∧ decode (s.peek s.pc) = i

end Sys2Proof.Claims

open Sys2Proof Sys2Proof.Config Sys2Proof.Machine Sys2Proof.Claims

/-! ### Registers, flags, sign extension -/

/-- R31: the flag of a value. -/
def Obligations.FlagFollowsWrittenValue : Prop :=
  ∀ v : Word, IsFlagOf v (flagOf v)

/-- R23: `x[i] <- v` writes the register and the flag, and nothing else. -/
def Obligations.RegisterWriteSetsFlag : Prop :=
  ∀ (s : State) (r : Reg) (v : Word), WritesOnly r v s (s.setReg r v)

/-- R86: for every width N the sign extension of a field has the field's two's-complement value. -/
def Obligations.SignExtensionKeepsValue : Prop :=
  ∀ (n : Nat) (f : BitVec n), 0 < n → n ≤ 16 → (sext f).toInt = f.toInt

/-! ### Operate instructions -/

/-- R132. -/
def Obligations.AddRegisterForm : Prop :=
  ∀ (s : State) (dr sr1 sr2 : Reg), ∃ t, exec (.addReg dr sr1 sr2) s = .next t ∧
    WritesOnly dr (BitVec.ofNat 16 ((s.reg sr1).toNat + (s.reg sr2).toNat)) s t

/-- R133. -/
def Obligations.AddImmediateForm : Prop :=
  ∀ (s : State) (dr sr1 : Reg) (imm : BitVec 5), ∃ t, exec (.addImm dr sr1 imm) s = .next t ∧
    WritesOnly dr (plusSigned (s.reg sr1) imm) s t

/-- R134. -/
def Obligations.AndRegisterForm : Prop :=
  ∀ (s : State) (dr sr1 sr2 : Reg), ∃ t, exec (.andReg dr sr1 sr2) s = .next t ∧
    WritesOnly dr (s.reg sr1 &&& s.reg sr2) s t

/-- R135: bit `k` of the operand is bit `k` of imm5, and from bit 5 on imm5's sign bit. -/
def Obligations.AndImmediateForm : Prop :=
  ∀ (s : State) (dr sr1 : Reg) (imm : BitVec 5), ∃ t v, exec (.andImm dr sr1 imm) s = .next t ∧
    WritesOnly dr v s t ∧
    ∀ k < 16, v.getLsbD k = ((s.reg sr1).getLsbD k && imm.getLsbD (min k 4))

/-- R136. -/
def Obligations.NotComplementsAllBits : Prop :=
  ∀ (s : State) (dr sr1 : Reg), ∃ t, exec (.notReg dr sr1) s = .next t ∧
    WritesOnly dr (BitVec.ofNat 16 (0xFFFF - (s.reg sr1).toNat)) s t

/-! ### Control transfer -/

/-- R150: the branch, taken and not; nothing but the PC changes. (Which bit tests which flag is D4, assumption 1.) -/
def Obligations.BranchOnCondition : Prop :=
  ∀ (s : State) (n z p : Bool) (off : BitVec 9),
    exec (.br n z p off) s =
      .next (if (n = true ∧ s.cond = .n) ∨ (z = true ∧ s.cond = .z) ∨ (p = true ∧ s.cond = .p)
        then { s with pc := plusSigned s.pc off } else s)

/-- R153: nothing but the PC changes. -/
def Obligations.JumpToRegister : Prop :=
  ∀ (s : State) (base : Reg), exec (.jmp base) s = .next { s with pc := s.reg base }

/-- R155, R157: the link write with its flag, then the jump. -/
def Obligations.JsrLinksThenJumps : Prop :=
  ∀ (s : State) (off : BitVec 11), ∃ t, exec (.jsr off) s = .next t ∧
    t.pc = plusSigned s.pc off ∧ WritesOnly .r7 s.pc s { t with pc := s.pc }

/-- R156: the base register is read after the link write, so `JSRR R7` falls through. -/
def Obligations.JsrrReadsBaseAfterLink : Prop :=
  ∀ (s : State) (base : Reg), ∃ t, exec (.jsrr base) s = .next t ∧
    t.pc = (if base = .r7 then s.pc else s.reg base) ∧ WritesOnly .r7 s.pc s { t with pc := s.pc }

/-- R160: JSR sets R7 to the incremented PC, and a JMP R7 at its target comes back to the instruction after it. -/
def Obligations.CallReturnsBehindJsr : Prop :=
  ∀ (s : State) (off : BitVec 11), Runs s (.jsr off) →
    plusSigned (s.pc + 1) off ≠ params.kbsr → decode (s.peek (plusSigned (s.pc + 1) off)) = .jmp .r7 →
    ∃ t u, step s = .next t ∧ t.reg .r7 = s.pc + 1 ∧ t.pc = plusSigned (s.pc + 1) off ∧
      step t = .next u ∧ u.pc = s.pc + 1

/-! ### Memory access -/

/-- R56: a store is plain at every address, the device words included. -/
def Obligations.MemWriteIsPlain : Prop :=
  ∀ (s : State) (a v : Word), StoresOnly a v s (memWrite a v s)

/-- R50: memories in canonical form that read alike at every address are the same list (the form is the
model's own, assumption 7). -/
def Obligations.CanonicalMemoriesAgree : Prop :=
  ∀ m m' : Memory, Memory.wf m = true → Memory.wf m' = true →
    (∀ a : Word, Memory.read m a.toNat = Memory.read m' a.toNat) → m = m'

/-- R55, D10: a read away from KBSR is plain; a read of KBSR first polls, with each answer the
environment has fixed. -/
def Obligations.MemReadPollsAtStatus : Prop :=
  ∀ s : State,
    (∀ a, a ≠ params.kbsr → memRead a s = .done (s.peek a) s) ∧
    (∀ ks, s.iob.keys = false :: ks → ∃ t, memRead params.kbsr s = .done 0x0000 t ∧
      StoresOnly params.kbsr 0x0000 { s with iob := { s.iob with keys := ks } } t) ∧
    (∀ ks b cs, s.iob.keys = true :: ks → s.iob.input = .byte b :: cs →
      ∃ t u, memRead params.kbsr s = .done 0x8000 t ∧
        StoresOnly params.kbsr 0x8000 { s with iob := { s.iob with keys := ks, input := cs } } u ∧
        StoresOnly params.kbdr (BitVec.ofNat 16 b.toNat) u t) ∧
    (∀ ks r cs, s.iob.keys = true :: ks → s.iob.input = .fail r :: cs →
      ∃ t, memRead params.kbsr s = .failed r t ∧
        StoresOnly params.kbsr 0x8000 { s with iob := { s.iob with keys := ks, input := cs } } t)

/-- R55, R58: whatever the environment answers, fixed or free, a read of KBSR is one of three: no key,
a key with its character, or the bridge's fault; the rest of the machine, the output and the flush count
are as before. The words the poll stores are the spec's choice D10 (assumption 13);
that `read_char` answers at all after a true `key_available` is its choice D29, and the free answers are the
model's own (assumptions 2, 3). -/
def Obligations.StatusReadHasThreeOutcomes : Prop :=
  ∀ s : State, ∃ t, SameButDevice s t ∧ (∀ q, t.reg q = s.reg q) ∧ t.pc = s.pc ∧ t.cond = s.cond ∧
    t.run = s.run ∧ t.iob.output = s.iob.output ∧ t.iob.flushed = s.iob.flushed ∧ t.iob.keys <:+ s.iob.keys ∧ t.iob.input <:+ s.iob.input ∧
    ((memRead params.kbsr s = .done 0x0000 t ∧ t.peek params.kbsr = 0x0000 ∧
        t.peek params.kbdr = s.peek params.kbdr) ∨
     (∃ b : Byte, memRead params.kbsr s = .done 0x8000 t ∧ t.peek params.kbsr = 0x8000 ∧
        t.peek params.kbdr = BitVec.ofNat 16 b.toNat) ∨
     (∃ r, memRead params.kbsr s = .failed r t ∧ t.peek params.kbsr = 0x8000 ∧
        t.peek params.kbdr = s.peek params.kbdr))

/-! ### Loads and stores -/

/-- R171. (That a failing poll ends the run so is D19, assumption 10; the status word it leaves is D10,
assumption 13.) -/
def Obligations.LoadPcRelative : Prop :=
  ∀ (s : State) (dr : Reg) (off : BitVec 9),
    (plusSigned s.pc off ≠ params.kbsr →
      ∃ t, exec (.ld dr off) s = .next t ∧ WritesOnly dr (s.peek (plusSigned s.pc off)) s t) ∧
    (∀ w s1, memRead (plusSigned s.pc off) s = .done w s1 →
      ∃ t, exec (.ld dr off) s = .next t ∧ WritesOnly dr w s1 t) ∧
    (∀ r s1, memRead (plusSigned s.pc off) s = .failed r s1 →
      ∃ t, exec (.ld dr off) s = .next t ∧ FaultedIO r s s1 t)

/-- R173. (The failing poll as in `LoadPcRelative`.) -/
def Obligations.LoadBaseOffset : Prop :=
  ∀ (s : State) (dr base : Reg) (off : BitVec 6),
    (plusSigned (s.reg base) off ≠ params.kbsr →
      ∃ t, exec (.ldr dr base off) s = .next t ∧ WritesOnly dr (s.peek (plusSigned (s.reg base) off)) s t) ∧
    (∀ w s1, memRead (plusSigned (s.reg base) off) s = .done w s1 →
      ∃ t, exec (.ldr dr base off) s = .next t ∧ WritesOnly dr w s1 t) ∧
    (∀ r s1, memRead (plusSigned (s.reg base) off) s = .failed r s1 →
      ∃ t, exec (.ldr dr base off) s = .next t ∧ FaultedIO r s s1 t)

/-- R172: two reads in order. (The failing poll as in `LoadPcRelative`.) -/
def Obligations.LoadIndirect : Prop :=
  ∀ (s : State) (dr : Reg) (off : BitVec 9),
    (plusSigned s.pc off ≠ params.kbsr → s.peek (plusSigned s.pc off) ≠ params.kbsr →
      ∃ t, exec (.ldi dr off) s = .next t ∧ WritesOnly dr (s.peek (s.peek (plusSigned s.pc off))) s t) ∧
    (∀ ea s1 w s2, memRead (plusSigned s.pc off) s = .done ea s1 → memRead ea s1 = .done w s2 →
      ∃ t, exec (.ldi dr off) s = .next t ∧ WritesOnly dr w s2 t) ∧
    (∀ r s1, memRead (plusSigned s.pc off) s = .failed r s1 →
      ∃ t, exec (.ldi dr off) s = .next t ∧ FaultedIO r s s1 t) ∧
    (∀ ea s1 r s2, memRead (plusSigned s.pc off) s = .done ea s1 → memRead ea s1 = .failed r s2 →
      ∃ t, exec (.ldi dr off) s = .next t ∧ FaultedIO r s s2 t)

/-- R174: the address, no access, and the flag of the address. -/
def Obligations.LeaGivesAddress : Prop :=
  ∀ (s : State) (dr : Reg) (off : BitVec 9), ∃ t, exec (.lea dr off) s = .next t ∧
    WritesOnly dr (plusSigned s.pc off) s t

/-- R175. -/
def Obligations.StorePcRelative : Prop :=
  ∀ (s : State) (sr : Reg) (off : BitVec 9), ∃ t, exec (.st sr off) s = .next t ∧
    StoresOnly (plusSigned s.pc off) (s.reg sr) s t

/-- R177. -/
def Obligations.StoreBaseOffset : Prop :=
  ∀ (s : State) (sr base : Reg) (off : BitVec 6), ∃ t, exec (.str sr base off) s = .next t ∧
    StoresOnly (plusSigned (s.reg base) off) (s.reg sr) s t

/-- R176: a read of the pointer, then the store; where the pointer read fails nothing is stored. (The failing
poll as in `LoadPcRelative`.) -/
def Obligations.StoreIndirect : Prop :=
  ∀ (s : State) (sr : Reg) (off : BitVec 9),
    (plusSigned s.pc off ≠ params.kbsr →
      ∃ t, exec (.sti sr off) s = .next t ∧ StoresOnly (s.peek (plusSigned s.pc off)) (s.reg sr) s t) ∧
    (∀ ea s1, memRead (plusSigned s.pc off) s = .done ea s1 →
      ∃ t, exec (.sti sr off) s = .next t ∧ StoresOnly ea (s.reg sr) s1 t) ∧
    (∀ r s1, memRead (plusSigned s.pc off) s = .failed r s1 →
      ∃ t, exec (.sti sr off) s = .next t ∧ FaultedIO r s s1 t)

/-- R179, R245, D10: a load whose operand read is of KBSR, with each answer the environment has fixed:
no key; a key; a key and then a failing `read_char` (nothing is loaded, the status word stays set). -/
def Obligations.LoadOfStatusPolls : Prop :=
  ∀ (i : Instr) (s : State) (d : Reg), operandAddress i s = some (d, params.kbsr) →
    (∀ ks, s.iob.keys = false :: ks → ∃ t, exec i s = .next t ∧ t.reg d = 0x0000 ∧ t.cond = .z ∧
      (∀ r, r ≠ d → t.reg r = s.reg r) ∧ t.pc = s.pc ∧ t.run = s.run ∧
      t.peek params.kbsr = 0x0000 ∧ (∀ a, a ≠ params.kbsr → t.peek a = s.peek a) ∧
      t.iob = { s.iob with keys := ks }) ∧
    (∀ ks b cs, s.iob.keys = true :: ks → s.iob.input = .byte b :: cs →
      ∃ t, exec i s = .next t ∧ t.reg d = 0x8000 ∧ t.cond = .n ∧
      (∀ r, r ≠ d → t.reg r = s.reg r) ∧ t.pc = s.pc ∧ t.run = s.run ∧
      t.peek params.kbsr = 0x8000 ∧ t.peek params.kbdr = BitVec.ofNat 16 b.toNat ∧ SameButDevice s t ∧
      t.iob = { s.iob with keys := ks, input := cs }) ∧
    (∀ ks r cs, s.iob.keys = true :: ks → s.iob.input = .fail r :: cs →
      ∃ t, exec i s = .next t ∧ t.run = .faulted (.ioFault r (s.pc - 1)) ∧
      (∀ q, t.reg q = s.reg q) ∧ t.cond = s.cond ∧ t.pc = s.pc ∧
      t.peek params.kbsr = 0x8000 ∧ (∀ a, a ≠ params.kbsr → t.peek a = s.peek a) ∧
      t.iob = { s.iob with keys := ks, input := cs })

/-! ### TRAP -/

/-- R203, D13: GETC with a character there: the link write, then the zero-extended byte in R0. -/
def Obligations.GetcReadsCharacter : Prop :=
  ∀ (s : State) (b : Byte) (cs : List ReadResult), s.iob.input = .byte b :: cs →
    ∃ t, exec .getc s = .next t ∧ t.reg .r7 = s.pc ∧ t.reg .r0 = BitVec.ofNat 16 b.toNat ∧
      t.cond = (if b = 0 then .z else .p) ∧ (∀ r, r ≠ .r7 → r ≠ .r0 → t.reg r = s.reg r) ∧
      t.pc = s.pc ∧ SameMemory s t ∧ t.run = s.run ∧ t.iob = { s.iob with input := cs }

/-- R206, D13, D15, D17 (assumptions 16, 1, 18): IN with a character there: prompt, echo, and the
zero-extended byte in R0. -/
def Obligations.InPromptsAndEchoes : Prop :=
  ∀ (s : State) (b : Byte) (cs : List ReadResult), s.iob.input = .byte b :: cs →
    ∃ t, exec .inEcho s = .next t ∧ t.reg .r7 = s.pc ∧ t.reg .r0 = BitVec.ofNat 16 b.toNat ∧
      t.cond = (if b = 0 then .z else .p) ∧ (∀ r, r ≠ .r7 → r ≠ .r0 → t.reg r = s.reg r) ∧
      t.pc = s.pc ∧ SameMemory s t ∧ t.run = s.run ∧
      t.iob = { s.iob with
        input := cs
        output := s.iob.output ++ params.inPrompt ++ [b]
        flushed := s.iob.output.length + params.inPrompt.length + 1 }

/-- R8, R203, R206, R261, D20, D21 (assumptions 6, 11): while no character has come, the step of GETC or IN
is not complete: the state is as before the step, whole, so no part of an instruction shows. What IN has by
then given the bridge, its prompt, is the environment's to see (R206; the flush count is assumption 18). -/
def Obligations.InputTrapsWait : Prop :=
  ∀ s : State, s.iob.input = [] →
    (Runs s .getc → step s = .next s) ∧
    (Runs s .inEcho → step s = .next s ∧
      bridgeWhileInBlocks s = { s.iob with
        output := s.iob.output ++ params.inPrompt
        flushed := s.iob.output.length + params.inPrompt.length })

/-- R214, R245, D19 (assumption 10): a failing `read_char` in GETC or IN: the link write stays, R0 is not
written, and IN's prompt is out (its flush is D17, assumption 18). -/
def Obligations.InputTrapsFault : Prop :=
  ∀ (s : State) (r : IOReport) (cs : List ReadResult), s.iob.input = .fail r :: cs →
    (∃ t, exec .getc s = .next t ∧ Linked s t ∧ t.run = .faulted (.ioFault r (s.pc - 1)) ∧
      t.iob = { s.iob with input := cs }) ∧
    (∃ t, exec .inEcho s = .next t ∧ Linked s t ∧ t.run = .faulted (.ioFault r (s.pc - 1)) ∧
      t.iob = { s.iob with
        input := cs
        output := s.iob.output ++ params.inPrompt
        flushed := s.iob.output.length + params.inPrompt.length })

/-- R204: OUT writes R0's low byte and flushes (D17, assumption 18). -/
def Obligations.OutWritesLowByte : Prop :=
  ∀ s : State, ∃ t, exec .out s = .next t ∧ Linked s t ∧ t.run = s.run ∧
    t.iob = { s.iob with
      output := s.iob.output ++ [BitVec.ofNat 8 (s.reg .r0).toNat]
      flushed := s.iob.output.length + 1 }

/-- R205, D14 (assumption 17): PUTS writes the low byte of each word up to the zero word, and flushes
(the flush count is the model's record of D17, assumption 18). Strings that meet KBSR are
`StringAtStatusPolls`. -/
def Obligations.PutsWritesString : Prop :=
  ∀ (s : State) (ws : List Word), StringAt s (s.reg .r0) ws →
    ∃ t, exec .puts s = .next t ∧ Linked s t ∧ t.run = s.run ∧
      t.iob = { s.iob with
        output := s.iob.output ++ ws.map (fun w => BitVec.ofNat 8 w.toNat)
        flushed := s.iob.output.length + ws.length }

/-- R207: PUTSP writes the low byte of each word, then its high byte unless that is zero, and flushes (the
flush count is the model's record of D17, assumption 18). That a zero low byte is written too is deduced
from R207's pseudocode (assumption 17). Strings that meet KBSR are `StringAtStatusPolls`. -/
def Obligations.PutspWritesPackedString : Prop :=
  ∀ (s : State) (ws : List Word), StringAt s (s.reg .r0) ws →
    ∃ t, exec .putsp s = .next t ∧ Linked s t ∧ t.run = s.run ∧
      t.iob.output = s.iob.output ++ ws.flatMap (fun w =>
        if w.toNat < 256 then [BitVec.ofNat 8 w.toNat]
        else [BitVec.ofNat 8 w.toNat, BitVec.ofNat 8 (w.toNat / 256)]) ∧
      t.iob.flushed = t.iob.output.length ∧ t.iob.input = s.iob.input ∧ t.iob.keys = s.iob.keys

/-- R205, R207, R261: with a zero word anywhere outside the two device words a string routine comes to an
end, or to the IOFault of a poll on its way. That a string's words are read through MemRead and so poll is the
spec's choice D11 (assumption 14); that a failing poll ends the run in FAULTED is its choice D19 (assumption 10).
And the routine stops as a hang exactly where nothing ever ends the string, no zero word and no poll, however
many words it reads from R0 on, round and round: R205 and R261 call a string without a zero word a hang; that
the model's answer to it is the fault `stringHang`, and that it is given exactly there, is the model's own
deduction (DEDUCED, assumption 9). -/
def Obligations.StringRoutinesEndAtSomeZeroWord : Prop :=
  ∀ (s : State) (i : Instr), (i = .puts ∨ i = .putsp) →
    (∀ z : Word, z ≠ params.kbsr → z ≠ params.kbdr → s.peek z = 0 →
      ∃ t, exec i s = .next t ∧ t.reg .r7 = s.pc ∧ t.pc = s.pc ∧ (∀ r, r ≠ .r7 → t.reg r = s.reg r) ∧
        SameButDevice s t ∧ (t.run = s.run ∨ ∃ r, t.run = .faulted (.ioFault r (s.pc - 1)))) ∧
    (exec i s = .fault .stringHang ↔ ∀ n, NothingEnds n (s.reg .r0) s)

/-- R57, R205, R207, D11 (assumption 14): the string routines read through MemRead: a string that begins at
KBSR or runs on to it, `ws` being its words before, polls there. With no key the status word is the
terminator; with a key it is a word 0x8000 like any other, KBDR takes the character, and the string goes
on behind KBSR; with a failing `read_char` the run ends in IOFault, the link write kept (D19,
assumption 10). The status words are the spec's choice D10 (assumption 13), the flush count is
assumption 18. -/
def Obligations.StringAtStatusPolls : Prop :=
  ∀ (s : State) (i : Instr) (ws : List Word), (i = .puts ∨ i = .putsp) → ReachesStatus s (s.reg .r0) ws →
    (∀ ks, s.iob.keys = false :: ks → ∃ t, exec i s = .next t ∧ LinkWritten s t ∧ t.run = s.run ∧
      t.peek params.kbsr = 0x0000 ∧ (∀ a, a ≠ params.kbsr → t.peek a = s.peek a) ∧
      t.iob = { s.iob with
        keys := ks
        output := s.iob.output ++ ws.flatMap (stringBytes i)
        flushed := (s.iob.output ++ ws.flatMap (stringBytes i)).length }) ∧
    (∀ ks b cs us, s.iob.keys = true :: ks → s.iob.input = .byte b :: cs →
      StringAt ((s.poke params.kbsr 0x8000).poke params.kbdr (BitVec.ofNat 16 b.toNat)) (params.kbsr + 1) us →
      ∃ t, exec i s = .next t ∧ LinkWritten s t ∧ t.run = s.run ∧
        t.peek params.kbsr = 0x8000 ∧ t.peek params.kbdr = BitVec.ofNat 16 b.toNat ∧ SameButDevice s t ∧
        t.iob.output = s.iob.output ++ ws.flatMap (stringBytes i) ++
          (if i = .putsp then [0x00, 0x80] else [0x00]) ++ us.flatMap (stringBytes i) ∧
        t.iob.flushed = t.iob.output.length ∧ t.iob.keys = ks ∧ t.iob.input = cs) ∧
    (∀ ks r cs, s.iob.keys = true :: ks → s.iob.input = .fail r :: cs →
      ∃ t, exec i s = .next t ∧ LinkWritten s t ∧ t.run = .faulted (.ioFault r (s.pc - 1)) ∧
        t.peek params.kbsr = 0x8000 ∧ (∀ a, a ≠ params.kbsr → t.peek a = s.peek a) ∧
        t.iob = { s.iob with keys := ks, input := cs, output := s.iob.output ++ ws.flatMap (stringBytes i) })

/-- R208: HALT writes its message (D16), flushes (D17, assumption 18) and halts; no step follows. -/
def Obligations.HaltStopsTheLoop : Prop :=
  ∀ s : State, ∃ t, exec .halt s = .next t ∧ Linked s t ∧ t.run = .halted ∧
    t.iob = { s.iob with
      output := s.iob.output ++ params.haltMessage
      flushed := (s.iob.output ++ params.haltMessage).length } ∧
    ∀ u, step t ≠ .next u

/-- R209, R243, D8: an unlisted vector: the link write, and then `UnknownTrapVector` under the default
policy, or nothing more under the other. -/
def Obligations.UnlistedVectorPolicies : Prop :=
  ∀ (s : State) (v : Byte),
    (∃ t, exec (.trapUnlisted v) s = .next t ∧ Linked s t ∧
      t.run = .faulted (.unknownTrapVector v (s.pc - 1)) ∧ t.iob = s.iob) ∧
    (∃ t, routineUnlisted .nop v (link s) = .next t ∧ Linked s t ∧ t.run = s.run ∧ t.iob = s.iob)

/-- R201: the generic row TRAP means what the row of its vector means (the vectors are D7, assumption 1; the
rows assumption 8). -/
def Obligations.TrapSelectsItsRoutine : Prop :=
  ∀ (v : Byte) (s : State), exec (.trap v) s = exec (refineTrap v) s ∧
    (∀ r : Routine, v = params.trapvec r → refineTrap v =
      match r with
      | .getc => .getc | .out => .out | .puts => .puts | .inEcho => .inEcho | .putsp => .putsp | .halt => .halt) ∧
    ((∀ r : Routine, v ≠ params.trapvec r) → refineTrap v = .trapUnlisted v)

/-- R200: every TRAP that need not wait makes the link write and leaves the PC: with a character there for the
routines that read one, and a string that ends at once for those that write one. -/
def Obligations.TrapLinksForEveryVector : Prop :=
  ∀ (v : Byte) (s : State),
    ((v = params.trapvec .getc ∨ v = params.trapvec .inEcho) → s.iob.input ≠ []) →
    ((v = params.trapvec .puts ∨ v = params.trapvec .putsp) →
      s.reg .r0 ≠ params.kbsr ∧ s.peek (s.reg .r0) = 0) →
    ∃ t, exec (.trap v) s = .next t ∧ t.reg .r7 = s.pc ∧ t.pc = s.pc ∧ SameMemory s t ∧
      ∀ r, r ≠ .r7 → r ≠ .r0 → t.reg r = s.reg r

/-! ### The aborting opcodes -/

/-- R230, R231, R242: RTI and RES change nothing but the run state. FAULTED and its record are the spec's
choices D18 and D25 (assumptions 10, 12); the recorded words hold the PRESUMED opcode values 0x8 and 0xD
(D1, assumption 1). -/
def Obligations.AbortingOpcodesFault : Prop :=
  ∀ (s : State) (u : BitVec 12),
    exec (.rti u) s = .next { s with
      run := .faulted (.unknownOpcode .rti (BitVec.ofNat 16 (0x8000 + u.toNat)) (s.pc - 1)) } ∧
    exec (.res u) s = .next { s with
      run := .faulted (.unknownOpcode .res (BitVec.ofNat 16 (0xD000 + u.toNat)) (s.pc - 1)) }

/-! ### The step -/

/-- R110 to R114: a step fetches, increments the PC and runs the decoded instruction. -/
def Obligations.StepRunsDecodedInstruction : Prop :=
  ∀ s : State, s.run = .running →
    (s.pc ≠ params.kbsr → step s = exec (decode (s.peek s.pc)) { s with pc := s.pc + 1 }) ∧
    (∀ ir s1, fetch s = .done ir s1 → step s = exec (decode ir) { s1 with pc := s1.pc + 1 })

/-- R116, R120, D10: a fetch at KBSR polls and runs the status word: 0x0000 is a BR that is never
taken, 0x8000 an RTI; a failing `read_char` faults before the increment. The status words are D10
(assumption 13), that they are a BR and an RTI rests on the PRESUMED opcode values (D1, assumption 1), and
the fault is D19 (assumption 10). -/
def Obligations.FetchAtStatusPolls : Prop :=
  ∀ s : State, s.run = .running → s.pc = params.kbsr →
    (∀ ks, s.iob.keys = false :: ks → ∃ t, step s = .next t ∧
      StoresOnly params.kbsr 0x0000 { s with pc := s.pc + 1, iob := { s.iob with keys := ks } } t) ∧
    (∀ ks b cs, s.iob.keys = true :: ks → s.iob.input = .byte b :: cs → ∃ t, step s = .next t ∧
      t.run = .faulted (.unknownOpcode .rti 0x8000 params.kbsr) ∧ t.pc = s.pc + 1 ∧ t.cond = s.cond ∧
      (∀ r, t.reg r = s.reg r) ∧ t.peek params.kbdr = BitVec.ofNat 16 b.toNat ∧ SameButDevice s t) ∧
    (∀ ks r cs, s.iob.keys = true :: ks → s.iob.input = .fail r :: cs → ∃ t, step s = .next t ∧
      t.run = .faulted (.ioFault r params.kbsr) ∧ t.pc = params.kbsr ∧ t.cond = s.cond ∧
      (∀ q, t.reg q = s.reg q) ∧ t.peek params.kbsr = 0x8000 ∧
      ∀ a, a ≠ params.kbsr → t.peek a = s.peek a)

/-- R117, R241, R276: no step is enabled unless the machine is RUNNING. (That the machine is in a run
state of its own before an image is loaded is the model's reading, assumption 4.) -/
def Obligations.NoStepUnlessRunning : Prop :=
  ∀ s : State, s.run ≠ .running → ∀ t, step s ≠ .next t

/-- R67: a store to the next instruction is what the next step runs. -/
def Obligations.StoreSeenByNextFetch : Prop :=
  ∀ (s : State) (sr : Reg), Runs s (.st sr 0) → s.pc + 1 ≠ params.kbsr →
    ∃ t, step s = .next t ∧ t.pc = s.pc + 1 ∧
      step t = exec (decode (s.reg sr)) { t with pc := s.pc + 2 }

/-- R28: after a step of a sequential instruction the PC is the next address. -/
def Obligations.SequentialPcAdvancesByOne : Prop :=
  ∀ (s t : State) (ir : Word) (s1 : State), s.run = .running → fetch s = .done ir s1 →
    isSequential (decode ir) = true → step s = .next t → t.pc = s.pc + 1

/-! ### Whole-machine rules -/

/-- R39, R271: the reset state. -/
def Obligations.ResetLeavesZeros : Prop :=
  (∀ r, State.reset.reg r = 0) ∧ State.reset.pc = params.pcStart ∧ State.reset.cond = .z ∧
    (∀ a, State.reset.peek a = 0) ∧ State.reset.run ≠ .running

/-- The reset state meets the machine's invariant. Memory with nothing listed is the canonical form of R39's
zeros (the form is assumption 7); that nothing is written or flushed is the model's choice (assumption 5), as
is the flush count (assumption 18). -/
def Obligations.ResetMeetsMachineInvariant : Prop := Safety.Inv State.reset

/-- Every step keeps the machine's invariant. Its clauses are about the model's own representation: the memory
list is canonical (R50; assumption 7), and no more bytes are flushed than written (R210; the count is
assumption 18). -/
def Obligations.StepKeepsMachineInvariant : Prop :=
  ∀ s t : State, Safety.Inv s → step s = .next t → Safety.Inv t

/-- R33: who leaves the flag alone. -/
def Obligations.FlagOtherwiseUntouched : Prop :=
  (∀ (i : Instr) (s t : State), writesNoRegister i = true → exec i s = .next t →
    t.cond = s.cond ∧ ∀ r, t.reg r = s.reg r) ∧
  (∀ (i : Instr) (s t : State), keepsLinkFlag i = true → exec i s = .next t → IsFlagOf s.pc t.cond) ∧
  (∀ s : State, s.advance.cond = s.cond) ∧
  (∀ (a w : Word) (s t : State), memRead a s = .done w t → t.cond = s.cond) ∧
  (∀ (a : Word) (r : IOReport) (s t : State), memRead a s = .failed r t → t.cond = s.cond) ∧
  (∀ (a v : Word) (s : State), (memWrite a v s).cond = s.cond) ∧
  (∀ (bs : List Byte) (s : State), (s.writeChars bs).cond = s.cond)

/-- R117, R118, R208: HALT is the only way to HALTED. -/
def Obligations.OnlyHaltHalts : Prop :=
  ∀ s t : State, step s = .next t → t.run = .halted →
    ∃ ir s1, fetch s = .done ir s1 ∧ decode ir = .halt

/-- R240, R249, D8, D18, D19: which instruction each fault comes from. -/
def Obligations.FaultsComeOnlyFromTheirCauses : Prop :=
  ∀ (s t : State) (f : FaultRecord), step s = .next t → t.run = .faulted f →
    match f with
    | .unknownOpcode op _ _ => ∃ ir s1 u, fetch s = .done ir s1 ∧
        ((op = .rti ∧ decode ir = .rti u) ∨ (op = .res ∧ decode ir = .res u))
    | .unknownTrapVector v _ => ∃ ir s1, fetch s = .done ir s1 ∧ decode ir = .trapUnlisted v
    | .ioFault r _ =>
        (∃ s1, fetch s = .failed r s1) ∨
        ∃ ir s1, fetch s = .done ir s1 ∧ mayReadCharacter (decode ir) = true

/-- R210, R211: a step only adds to the output, and only takes answers from the front of what the environment
has fixed; without a TRAP it writes nothing. -/
def Obligations.InputAndOutputKeepOrder : Prop :=
  ∀ s t : State, step s = .next t →
    s.iob.output <+: t.iob.output ∧ t.iob.input <:+ s.iob.input ∧ t.iob.keys <:+ s.iob.keys ∧
    (t.iob.output ≠ s.iob.output → ∃ ir s1, fetch s = .done ir s1 ∧ isTrap (decode ir) = true)

/-- R62, R202: only the stores change memory away from the two device words. -/
def Obligations.OnlyStoresChangeMemory : Prop :=
  ∀ (s t : State), step s = .next t →
    (∀ ir s1, fetch s = .done ir s1 → isStore (decode ir) = false) → SameButDevice s t

/-- R283: an instruction that asks the environment nothing does the same whatever the environment's answers are,
and takes none of them. -/
def Obligations.UnaskedAnswersHaveNoEffect : Prop :=
  ∀ (i : Instr) (s : State) (ks : List Bool) (cs : List ReadResult) (kc cc : FreeCursor), AsksNothing i s →
    exec i (withAnswers s ks cs kc cc) = Result.withAnswers (exec i s) ks cs kc cc

/-! ### Encoding -/

/-- R93: decoding the encoding of a well-formed instruction gives it back, with every operand; that of
the generic TRAP row gives the row of its vector (assumption 8). -/
def Obligations.DecodeEncodeRoundTrip : Prop :=
  (∀ i : Instr, i.wellFormed = true → decode (encode i) = i) ∧
  ∀ v : Byte, decode (encode (.trap v)) = refineTrap v

/-- R81, R88, R89: every word decodes to a well-formed instruction, whose own word agrees with it on the bits
R88's row uses; and a word that agrees with it on those bits decodes to the same instruction. That the other
bits are ignored is the spec's choice D9; RTI and RES keep them for the fault record only (assumption 12). -/
def Obligations.UnusedBitsAreIgnored : Prop :=
  ∀ ir : Word, (decode ir).wellFormed = true ∧
    encode (decode ir) &&& usedBits (decode ir) = ir &&& usedBits (decode ir) ∧
    ∀ ir' : Word, ir' &&& usedBits (decode ir) = ir &&& usedBits (decode ir) →
      withoutIgnored (decode ir') = withoutIgnored (decode ir)

/-- R90: the words that abort are exactly those with the opcode of RTI or RES. -/
def Obligations.AbortingWordsAreTwoOpcodes : Prop :=
  ∀ ir : Word, (∃ u, decode ir = .rti u ∨ decode ir = .res u) ↔
    (ir.toNat / 4096 = (params.opmap .rti).toNat ∨ ir.toNat / 4096 = (params.opmap .res).toNat)

/-- R96, 95_test_vectors.md 4.2 (words with the PRESUMED opcode values, assumption 1). -/
def Obligations.SpecExampleWordsDecode : Prop :=
  decode 0x107F = .addImm .r0 .r1 0x1F ∧ decode 0x14C4 = .addReg .r2 .r3 .r4 ∧
  decode 0x5020 = .andImm .r0 .r0 0 ∧ decode 0x5042 = .andReg .r0 .r1 .r2 ∧
  decode 0x92BF = .notReg .r1 .r2 ∧ decode 0x05FD = .br false true false 0x1FD ∧
  decode 0xC1C0 = .jmp .r7 ∧ decode 0x4802 = .jsr 2 ∧ decode 0x40C0 = .jsrr .r3 ∧
  decode 0x2405 = .ld .r2 5 ∧ decode 0xA5FF = .ldi .r2 0x1FF ∧ decode 0x63BE = .ldr .r1 .r6 0x3E ∧
  decode 0xE003 = .lea .r0 3 ∧ decode 0x3604 = .st .r3 4 ∧ decode 0xB604 = .sti .r3 4 ∧
  decode 0x7381 = .str .r1 .r6 1 ∧ decode 0xF025 = .halt ∧ decode 0xF0FF = .trapUnlisted 0xFF ∧
  decode 0x8000 = .rti 0 ∧ decode 0xD000 = .res 0

/-! ### Boot -/

/-- R275, R277: loading an image and reading its words back gives them unchanged. -/
def Obligations.LoaderRoundTrip : Prop :=
  ∀ (s : State) (origin : Word) (ws : List Word), ∃ t, loadImage (imageBytes origin ws) s = .ok t ∧
    ∀ k (h : k < ws.length), origin.toNat + k < 65536 → t.peek (origin + BitVec.ofNat 16 k) = ws[k]

/-- R275, R286, D24: the loader writes only the addresses from the origin on that it has whole words for, never
wraps, and changes nothing but memory; only an image without a whole origin fails. -/
def Obligations.LoaderStaysInItsRange : Prop :=
  (∀ (s : State) (hi lo : Byte) (rest : List Byte), ∃ t, loadImage (hi :: lo :: rest) s = .ok t ∧
    (∀ a : Word, (a.toNat < hi.toNat * 256 + lo.toNat ∨
      hi.toNat * 256 + lo.toNat + rest.length / 2 ≤ a.toNat) → t.peek a = s.peek a) ∧
    t.regs = s.regs ∧ t.pc = s.pc ∧ t.cond = s.cond ∧ t.run = s.run ∧ t.iob = s.iob) ∧
  (∀ (s : State) (b : List Byte), b.length < 2 → loadImage b s = .error .originUnreadable)

/-- R271, R276, D24, assumption 4: with no image loaded the machine takes no step; with one loaded it is RUNNING at
PC_START with its registers as reset left them. -/
def Obligations.BootNeedsAnImage : Prop :=
  ∀ images : List (List Byte),
    ((∀ b ∈ images, b.length < 2) → ∀ t, step (boot images) ≠ .next t) ∧
    ((∃ b ∈ images, 2 ≤ b.length) → (boot images).run = .running) ∧
    (boot images).pc = params.pcStart ∧ (boot images).cond = .z ∧ ∀ r, (boot images).reg r = 0
end

