-- ==== Sys2Proof/Laws/Encoding.lean ====
section
/-! SUPPORT. The look-ups of the decoder are inverse to the tables of the encoder. -/

namespace Sys2Proof

open Sys2Proof.Config
open Sys2Proof.Machine (params slotOf routineOf)

/-- The parameters of this machine are well formed (R52, R83, R201). -/
theorem params_wellFormed : params.wellFormed = true := by decide

theorem slotOf_opmap (t : Slot) : slotOf (params.opmap t) = t := by cases t <;> rfl

/-- R81: every opcode value selects a slot. -/
theorem opmap_slotOf : ∀ op : BitVec 4, params.opmap (slotOf op) = op := by decide

/-- R80: a word is the word of its opcode's slot over its twelve low bits. -/
theorem wordOf_body (ir : Word) : ir = wordOf (slotOf (opcodeField ir)) (ir.extractLsb' 0 12) := by
  unfold wordOf
  rw [opmap_slotOf]
  unfold opcodeField
  apply BitVec.eq_of_getLsbD_eq
  intro i hi
  rw [BitVec.getLsbD_append]
  by_cases h : i < 12
  · simp [h]
  · simp [h, show i - 12 < 4 by omega, show 12 + (i - 12) = i by omega]

theorem routineOf_trapvec (r : Routine) : routineOf (params.trapvec r) = some r := by cases r <;> rfl

theorem regOfField_fieldOfReg (r : Reg) : regOfField (fieldOfReg r) = r := by cases r <;> rfl

theorem fieldOfReg_regOfField : ∀ f : BitVec 3, fieldOfReg (regOfField f) = f := by decide

end Sys2Proof
end

