-- ==== Sys2Proof/Laws/State.lean ====
section
/-! SUPPORT. One lemma per field of State per named update, and the register and memory views after
each: no later proof unfolds a record update. -/

namespace Sys2Proof.Machine

/-! ### The register file -/

@[simp] theorem Regs.get_set_same (g : Regs) (r : Reg) (v : Word) : (g.set r v).get r = v := by
  cases r <;> rfl

theorem Regs.get_set_other (g : Regs) (r q : Reg) (v : Word) (h : q ≠ r) :
    (g.set r v).get q = g.get q := by
  cases r <;> cases q <;> first | rfl | exact absurd rfl h

theorem Regs.ext_get (g h : Regs) (e : ∀ r, g.get r = h.get r) : g = h := by
  cases g; cases h
  simp only [Regs.mk.injEq]
  exact ⟨e .r0, e .r1, e .r2, e .r3, e .r4, e .r5, e .r6, e .r7⟩

/-! ### setReg -/

@[simp] theorem State.setReg_regs (s : State) (r : Reg) (v : Word) : (s.setReg r v).regs = s.regs.set r v := rfl
@[simp] theorem State.setReg_pc (s : State) (r : Reg) (v : Word) : (s.setReg r v).pc = s.pc := rfl
@[simp] theorem State.setReg_cond (s : State) (r : Reg) (v : Word) : (s.setReg r v).cond = flagOf v := rfl
@[simp] theorem State.setReg_mem (s : State) (r : Reg) (v : Word) : (s.setReg r v).mem = s.mem := rfl
@[simp] theorem State.setReg_run (s : State) (r : Reg) (v : Word) : (s.setReg r v).run = s.run := rfl
@[simp] theorem State.setReg_iob (s : State) (r : Reg) (v : Word) : (s.setReg r v).iob = s.iob := rfl

@[simp] theorem State.setReg_reg_same (s : State) (r : Reg) (v : Word) : (s.setReg r v).reg r = v := Regs.get_set_same _ _ _
theorem State.setReg_reg_other (s : State) (r : Reg) (v : Word) (q : Reg) (h : q ≠ r) : (s.setReg r v).reg q = s.reg q := Regs.get_set_other _ _ _ _ h
@[simp] theorem State.setReg_peek (s : State) (r : Reg) (v : Word) (x : Word) : (s.setReg r v).peek x = s.peek x := rfl

/-! ### setRegQuiet -/

@[simp] theorem State.setRegQuiet_regs (s : State) (r : Reg) (v : Word) : (s.setRegQuiet r v).regs = s.regs.set r v := rfl
@[simp] theorem State.setRegQuiet_pc (s : State) (r : Reg) (v : Word) : (s.setRegQuiet r v).pc = s.pc := rfl
@[simp] theorem State.setRegQuiet_cond (s : State) (r : Reg) (v : Word) : (s.setRegQuiet r v).cond = s.cond := rfl
@[simp] theorem State.setRegQuiet_mem (s : State) (r : Reg) (v : Word) : (s.setRegQuiet r v).mem = s.mem := rfl
@[simp] theorem State.setRegQuiet_run (s : State) (r : Reg) (v : Word) : (s.setRegQuiet r v).run = s.run := rfl
@[simp] theorem State.setRegQuiet_iob (s : State) (r : Reg) (v : Word) : (s.setRegQuiet r v).iob = s.iob := rfl

@[simp] theorem State.setRegQuiet_reg_same (s : State) (r : Reg) (v : Word) : (s.setRegQuiet r v).reg r = v := Regs.get_set_same _ _ _
theorem State.setRegQuiet_reg_other (s : State) (r : Reg) (v : Word) (q : Reg) (h : q ≠ r) : (s.setRegQuiet r v).reg q = s.reg q := Regs.get_set_other _ _ _ _ h
@[simp] theorem State.setRegQuiet_peek (s : State) (r : Reg) (v : Word) (x : Word) : (s.setRegQuiet r v).peek x = s.peek x := rfl

/-! ### setPc -/

@[simp] theorem State.setPc_regs (s : State) (p : Word) : (s.setPc p).regs = s.regs := rfl
@[simp] theorem State.setPc_pc (s : State) (p : Word) : (s.setPc p).pc = p := rfl
@[simp] theorem State.setPc_cond (s : State) (p : Word) : (s.setPc p).cond = s.cond := rfl
@[simp] theorem State.setPc_mem (s : State) (p : Word) : (s.setPc p).mem = s.mem := rfl
@[simp] theorem State.setPc_run (s : State) (p : Word) : (s.setPc p).run = s.run := rfl
@[simp] theorem State.setPc_iob (s : State) (p : Word) : (s.setPc p).iob = s.iob := rfl

@[simp] theorem State.setPc_reg (s : State) (p : Word) (q : Reg) : (s.setPc p).reg q = s.reg q := rfl
@[simp] theorem State.setPc_peek (s : State) (p : Word) (x : Word) : (s.setPc p).peek x = s.peek x := rfl

/-! ### advance -/

@[simp] theorem State.advance_regs (s : State) : (s.advance).regs = s.regs := rfl
@[simp] theorem State.advance_pc (s : State) : (s.advance).pc = s.pc + 1 := rfl
@[simp] theorem State.advance_cond (s : State) : (s.advance).cond = s.cond := rfl
@[simp] theorem State.advance_mem (s : State) : (s.advance).mem = s.mem := rfl
@[simp] theorem State.advance_run (s : State) : (s.advance).run = s.run := rfl
@[simp] theorem State.advance_iob (s : State) : (s.advance).iob = s.iob := rfl

@[simp] theorem State.advance_reg (s : State) (q : Reg) : (s.advance).reg q = s.reg q := rfl
@[simp] theorem State.advance_peek (s : State) (x : Word) : (s.advance).peek x = s.peek x := rfl

/-! ### hold -/

@[simp] theorem State.hold_regs (s : State) : (s.hold).regs = s.regs := rfl
@[simp] theorem State.hold_pc (s : State) : (s.hold).pc = s.pc - 1 := rfl
@[simp] theorem State.hold_cond (s : State) : (s.hold).cond = s.cond := rfl
@[simp] theorem State.hold_mem (s : State) : (s.hold).mem = s.mem := rfl
@[simp] theorem State.hold_run (s : State) : (s.hold).run = s.run := rfl
@[simp] theorem State.hold_iob (s : State) : (s.hold).iob = s.iob := rfl

@[simp] theorem State.hold_reg (s : State) (q : Reg) : (s.hold).reg q = s.reg q := rfl
@[simp] theorem State.hold_peek (s : State) (x : Word) : (s.hold).peek x = s.peek x := rfl

/-! ### poke -/

@[simp] theorem State.poke_regs (s : State) (a v : Word) : (s.poke a v).regs = s.regs := rfl
@[simp] theorem State.poke_pc (s : State) (a v : Word) : (s.poke a v).pc = s.pc := rfl
@[simp] theorem State.poke_cond (s : State) (a v : Word) : (s.poke a v).cond = s.cond := rfl
@[simp] theorem State.poke_mem (s : State) (a v : Word) : (s.poke a v).mem = Memory.write s.mem a.toNat v := rfl
@[simp] theorem State.poke_run (s : State) (a v : Word) : (s.poke a v).run = s.run := rfl
@[simp] theorem State.poke_iob (s : State) (a v : Word) : (s.poke a v).iob = s.iob := rfl

@[simp] theorem State.poke_reg (s : State) (a v : Word) (q : Reg) : (s.poke a v).reg q = s.reg q := rfl

/-! ### writeChars -/

@[simp] theorem State.writeChars_regs (s : State) (bs : List Byte) : (s.writeChars bs).regs = s.regs := rfl
@[simp] theorem State.writeChars_pc (s : State) (bs : List Byte) : (s.writeChars bs).pc = s.pc := rfl
@[simp] theorem State.writeChars_cond (s : State) (bs : List Byte) : (s.writeChars bs).cond = s.cond := rfl
@[simp] theorem State.writeChars_mem (s : State) (bs : List Byte) : (s.writeChars bs).mem = s.mem := rfl
@[simp] theorem State.writeChars_run (s : State) (bs : List Byte) : (s.writeChars bs).run = s.run := rfl
@[simp] theorem State.writeChars_iob (s : State) (bs : List Byte) : (s.writeChars bs).iob = { s.iob with output := s.iob.output ++ bs } := rfl

@[simp] theorem State.writeChars_reg (s : State) (bs : List Byte) (q : Reg) : (s.writeChars bs).reg q = s.reg q := rfl
@[simp] theorem State.writeChars_peek (s : State) (bs : List Byte) (x : Word) : (s.writeChars bs).peek x = s.peek x := rfl

/-! ### flush -/

@[simp] theorem State.flush_regs (s : State) : (s.flush).regs = s.regs := rfl
@[simp] theorem State.flush_pc (s : State) : (s.flush).pc = s.pc := rfl
@[simp] theorem State.flush_cond (s : State) : (s.flush).cond = s.cond := rfl
@[simp] theorem State.flush_mem (s : State) : (s.flush).mem = s.mem := rfl
@[simp] theorem State.flush_run (s : State) : (s.flush).run = s.run := rfl
@[simp] theorem State.flush_iob (s : State) : (s.flush).iob = { s.iob with flushed := s.iob.output.length } := rfl

@[simp] theorem State.flush_reg (s : State) (q : Reg) : (s.flush).reg q = s.reg q := rfl
@[simp] theorem State.flush_peek (s : State) (x : Word) : (s.flush).peek x = s.peek x := rfl

/-! ### promptOut -/

@[simp] theorem State.promptOut_regs (s : State) : s.promptOut.regs = s.regs := rfl
@[simp] theorem State.promptOut_pc (s : State) : s.promptOut.pc = s.pc := rfl
@[simp] theorem State.promptOut_cond (s : State) : s.promptOut.cond = s.cond := rfl
@[simp] theorem State.promptOut_mem (s : State) : s.promptOut.mem = s.mem := rfl
@[simp] theorem State.promptOut_run (s : State) : s.promptOut.run = s.run := rfl
@[simp] theorem State.promptOut_iob (s : State) : s.promptOut.iob = { s.iob with
    output := s.iob.output ++ params.inPrompt, flushed := (s.iob.output ++ params.inPrompt).length } := rfl

@[simp] theorem State.promptOut_reg (s : State) (q : Reg) : s.promptOut.reg q = s.reg q := rfl
@[simp] theorem State.promptOut_peek (s : State) (x : Word) : s.promptOut.peek x = s.peek x := rfl

end Sys2Proof.Machine
end

