-- ==== Sys2Proof/Laws/Memory.lean ====
section
/-! SUPPORT. The laws of the memory array: read after write, the canonical form, and that canonical
memories which read alike are equal. -/

namespace Sys2Proof.Machine

theorem Memory.read_erase (m : Memory) (a b : Nat) :
    Memory.read (Memory.erase m a) b = if b = a then Memory.unlisted else Memory.read m b := by
  induction m with
  | nil => simp [Memory.erase, Memory.read]
  | cons c m ih =>
    obtain ⟨k, w⟩ := c
    by_cases hk : k = a
    · simp only [Memory.erase, hk, if_true, ih, Memory.read]
      by_cases hb : b = a
      · simp [hb]
      · simp [hb, Ne.symm hb]
    · simp only [Memory.erase, hk, if_false, Memory.read, ih]
      by_cases hb : k = b
      · simp [hb, show ¬ b = a from hb ▸ hk]
      · simp [hb]

theorem Memory.read_insert (m : Memory) (a b : Nat) (v : Word)
    (h : Memory.read m a = Memory.unlisted ∧ ∀ c ∈ m, c.1 ≠ a) :
    Memory.read (Memory.insert m a v) b = if b = a then v else Memory.read m b := by
  induction m with
  | nil =>
    by_cases hb : b = a
    · simp [Memory.insert, Memory.read, hb]
    · simp [Memory.insert, Memory.read, hb, Ne.symm hb]
  | cons c m ih =>
    obtain ⟨k, w⟩ := c
    have hk : k ≠ a := h.2 (k, w) (by simp)
    have hm : Memory.read m a = Memory.unlisted ∧ ∀ c ∈ m, c.1 ≠ a := by
      refine ⟨by simpa [Memory.read, hk] using h.1, fun c hc => h.2 c (by simp [hc])⟩
    by_cases hlt : a < k
    · simp only [Memory.insert, hlt, if_true]
      by_cases hb : b = a
      · simp [Memory.read, hb]
      · simp [Memory.read, hb, Ne.symm hb]
    · simp only [Memory.insert, hlt, if_false, Memory.read, ih hm]
      by_cases hb : k = b
      · simp [hb, show ¬ b = a from hb ▸ hk]
      · simp [hb]

theorem Memory.erase_notMem (m : Memory) (a : Nat) : ∀ c ∈ Memory.erase m a, c.1 ≠ a := by
  induction m with
  | nil => simp [Memory.erase]
  | cons c m ih =>
    obtain ⟨k, w⟩ := c
    by_cases hk : k = a
    · simpa [Memory.erase, hk] using ih
    · simpa [Memory.erase, hk] using ih

/-- Everything a write does to what is read: the address written reads as the value, every other as before. -/
theorem Memory.read_write (m : Memory) (a b : Nat) (v : Word) :
    Memory.read (Memory.write m a v) b = if b = a then v else Memory.read m b := by
  unfold Memory.write
  split
  · next hv => rw [Memory.read_erase, hv]
  · rw [Memory.read_insert _ _ _ _ ⟨by simp [Memory.read_erase], Memory.erase_notMem m a⟩, Memory.read_erase]
    split <;> rfl

theorem Memory.wfFrom_mono (m : Memory) (lo hi : Nat) (h : lo ≤ hi) (w : Memory.wfFrom hi m = true) :
    Memory.wfFrom lo m = true := by
  cases m with
  | nil => rfl
  | cons c m =>
    simp only [Memory.wfFrom, Bool.and_eq_true, decide_eq_true_eq] at w ⊢
    exact ⟨⟨⟨by omega, w.1.1.2⟩, w.1.2⟩, w.2⟩

theorem Memory.wfFrom_erase (m : Memory) (a lo : Nat) (w : Memory.wfFrom lo m = true) :
    Memory.wfFrom lo (Memory.erase m a) = true := by
  induction m generalizing lo with
  | nil => rfl
  | cons c m ih =>
    obtain ⟨k, v⟩ := c
    simp only [Memory.wfFrom, Bool.and_eq_true, decide_eq_true_eq] at w
    unfold Memory.erase
    split
    · exact Memory.wfFrom_mono _ lo (k + 1) (by omega) (ih _ w.2)
    · simp only [Memory.wfFrom, Bool.and_eq_true, decide_eq_true_eq]
      exact ⟨w.1, ih _ w.2⟩

theorem Memory.wfFrom_insert (m : Memory) (a lo : Nat) (v : Word) (hv : v ≠ Memory.unlisted)
    (ha : lo ≤ a) (hb : a < 65536) (hm : ∀ c ∈ m, c.1 ≠ a) (w : Memory.wfFrom lo m = true) :
    Memory.wfFrom lo (Memory.insert m a v) = true := by
  induction m generalizing lo with
  | nil => simp [Memory.insert, Memory.wfFrom, hv, ha, hb]
  | cons c m ih =>
    obtain ⟨k, u⟩ := c
    have hk : k ≠ a := hm (k, u) (by simp)
    simp only [Memory.wfFrom, Bool.and_eq_true, decide_eq_true_eq] at w
    unfold Memory.insert
    split
    · simp only [Memory.wfFrom, Bool.and_eq_true, decide_eq_true_eq]
      exact ⟨⟨⟨ha, hb⟩, hv⟩, ⟨⟨by omega, w.1.1.2⟩, w.1.2⟩, w.2⟩
    · simp only [Memory.wfFrom, Bool.and_eq_true, decide_eq_true_eq]
      exact ⟨w.1, ih _ (by omega) (fun c hc => hm c (by simp [hc])) w.2⟩

/-- A write keeps the canonical form. -/
theorem Memory.wf_write (m : Memory) (a : Word) (v : Word) (w : Memory.wf m = true) :
    Memory.wf (Memory.write m a.toNat v) = true := by
  unfold Memory.write Memory.wf
  split
  · exact Memory.wfFrom_erase _ _ _ w
  · next hv =>
    exact Memory.wfFrom_insert _ _ _ _ hv (Nat.zero_le _) a.isLt (Memory.erase_notMem _ _)
      (Memory.wfFrom_erase _ _ _ w)

/-- Reset memory has the canonical form. -/
theorem Memory.wf_reset : Memory.wf State.reset.mem = true := rfl

@[simp] theorem State.poke_peek_same (s : State) (a v : Word) : (s.poke a v).peek a = v := by
  simp [State.peek, Memory.read_write]

theorem State.poke_peek_other (s : State) (a v x : Word) (h : x ≠ a) :
    (s.poke a v).peek x = s.peek x := by
  have h' : x.toNat ≠ a.toNat := fun e => h (BitVec.eq_of_toNat_eq e)
  simp [State.peek, Memory.read_write, h']


end Sys2Proof.Machine
end

