-- ==== Sys2Proof/Laws/Ops.lean ====
section
/-! SUPPORT. For each shared operation, what it can do, said once: the prover cites these and does not
unfold the operation. -/

namespace Sys2Proof.Machine

open Sys2Proof.Config

theorem kbsr_ne_kbdr : params.kbsr ≠ params.kbdr := by decide

/-- The link write of this machine writes R7 and sets the flag. -/
theorem link_eq (s : State) : link s = s.setReg .r7 s.pc := rfl

/-- A free answer is a plain one unless its run is used up. -/
theorem FreeCursor.plain_iff (runs : Nat → Option Nat) (c : FreeCursor) :
    c.plain runs = true ↔ c.left runs ≠ some 0 := by
  unfold FreeCursor.plain FreeCursor.left
  cases runs c.run with
  | none => simp
  | some n => simp; omega

/-- A plain answer leaves one less in the run. -/
theorem FreeCursor.left_next {runs : Nat → Option Nat} {c : FreeCursor} (h : c.plain runs = true) :
    (c.next runs).left runs = (c.left runs).map (· - 1) := by
  unfold FreeCursor.next FreeCursor.left
  rw [h]
  simp only [cond_true, Option.map_map]
  congr 1

/-- A plain character is not 0x00. -/
theorem FreeCursor.char_plain {c : FreeCursor} (h : c.plain freeCharRun = true) : ∃ b, c.char = .byte b ∧ b ≠ 0 := by
  unfold FreeCursor.char
  rw [h]
  refine ⟨_, rfl, fun e => ?_⟩
  have e' := congrArg BitVec.toNat e
  have := (freeChar c.run c.pos).isLt
  simp at e'
  omega

/-- What closes a run of characters is 0x00 or a fault. -/
theorem FreeCursor.char_end {c : FreeCursor} (h : c.plain freeCharRun = false) :
    c.char = .byte 0 ∨ ∃ r, c.char = .fail r := by
  unfold FreeCursor.char
  rw [h]
  cases freeCharEnd c.run with
  | none => exact .inl rfl
  | some r => exact .inr ⟨r, rfl⟩

/-- What `askKey` does: it takes the first fixed answer, or a free one. -/
theorem State.askKey_cases (s : State) :
    (∃ k ks, s.iob.keys = k :: ks ∧ s.askKey = (k, { s with iob := { s.iob with keys := ks } })) ∨
    (s.iob.keys = [] ∧
      s.askKey = (s.iob.keyCursor.plain freeKeyRun,
        { s with iob := { s.iob with keyCursor := s.iob.keyCursor.next freeKeyRun } })) := by
  unfold State.askKey
  cases h : s.iob.keys with
  | nil => exact .inr ⟨rfl, rfl⟩
  | cons k ks => exact .inl ⟨k, ks, rfl, rfl⟩

/-- What `pollChar` does: it takes the first fixed answer, or a free one. -/
theorem State.pollChar_cases (s : State) :
    (∃ c cs, s.iob.input = c :: cs ∧ s.pollChar = (c, { s with iob := { s.iob with input := cs } })) ∨
    (s.iob.input = [] ∧
      s.pollChar = (s.iob.charCursor.char,
        { s with iob := { s.iob with charCursor := s.iob.charCursor.next freeCharRun } })) := by
  unfold State.pollChar
  cases h : s.iob.input with
  | nil => exact .inr ⟨rfl, rfl⟩
  | cons c cs => exact .inl ⟨c, cs, rfl, rfl⟩

/-- What `readChar` does: it takes the first fixed answer, or there is none. -/
theorem State.readChar_cases (s : State) :
    (∃ c cs, s.iob.input = c :: cs ∧ s.readChar = some (c, { s with iob := { s.iob with input := cs } })) ∨
    (s.iob.input = [] ∧ s.readChar = none) := by
  unfold State.readChar
  cases h : s.iob.input with
  | nil => exact .inr ⟨rfl, rfl⟩
  | cons c cs => exact .inl ⟨c, cs, rfl, rfl⟩

/-- What a read by the core can leave changed: the two device words and the bridge's answers taken. -/
structure ReadFrame (s t : State) : Prop where
  regs : t.regs = s.regs
  pc : t.pc = s.pc
  cond : t.cond = s.cond
  run : t.run = s.run
  wf : Memory.wf s.mem = true → Memory.wf t.mem = true
  peek : ∀ a, a ≠ params.kbsr → a ≠ params.kbdr → t.peek a = s.peek a
  output : t.iob.output = s.iob.output
  flushed : t.iob.flushed = s.iob.flushed
  keys : t.iob.keys <:+ s.iob.keys
  input : t.iob.input <:+ s.iob.input

theorem ReadFrame.refl (s : State) : ReadFrame s s :=
  ⟨rfl, rfl, rfl, rfl, id, fun _ _ _ => rfl, rfl, rfl, List.suffix_refl _, List.suffix_refl _⟩

theorem ReadFrame.trans {s t u : State} (a : ReadFrame s t) (b : ReadFrame t u) : ReadFrame s u where
  regs := b.regs.trans a.regs
  pc := b.pc.trans a.pc
  cond := b.cond.trans a.cond
  run := b.run.trans a.run
  wf := fun h => b.wf (a.wf h)
  peek := fun x h1 h2 => (b.peek x h1 h2).trans (a.peek x h1 h2)
  output := b.output.trans a.output
  flushed := b.flushed.trans a.flushed
  keys := b.keys.trans a.keys
  input := b.input.trans a.input

theorem ReadFrame.reg {s t : State} (f : ReadFrame s t) (r : Reg) : t.reg r = s.reg r := by
  simp [State.reg, f.regs]

theorem State.askKey_frame (s : State) : ReadFrame s s.askKey.2 := by
  obtain ⟨k, ks, h, e⟩ | ⟨_, e⟩ := s.askKey_cases <;> rw [e]
  · exact ⟨rfl, rfl, rfl, rfl, id, fun _ _ _ => rfl, rfl, rfl, by simp [h], List.suffix_refl _⟩
  · exact ⟨rfl, rfl, rfl, rfl, id, fun _ _ _ => rfl, rfl, rfl, List.suffix_refl _, List.suffix_refl _⟩

theorem State.pollChar_frame (s : State) : ReadFrame s s.pollChar.2 := by
  obtain ⟨k, ks, h, e⟩ | ⟨_, e⟩ := s.pollChar_cases <;> rw [e]
  · exact ⟨rfl, rfl, rfl, rfl, id, fun _ _ _ => rfl, rfl, rfl, List.suffix_refl _, by simp [h]⟩
  · exact ⟨rfl, rfl, rfl, rfl, id, fun _ _ _ => rfl, rfl, rfl, List.suffix_refl _, List.suffix_refl _⟩

theorem State.poke_frame (s : State) (a v : Word) (h : a = params.kbsr ∨ a = params.kbdr) :
    ReadFrame s (s.poke a v) where
  regs := rfl
  pc := rfl
  cond := rfl
  run := rfl
  wf := Memory.wf_write _ _ _
  peek := fun x h1 h2 => s.poke_peek_other a v x (by rintro rfl; exact h.elim h1 h2)
  output := rfl
  flushed := rfl
  keys := List.suffix_refl _
  input := List.suffix_refl _

theorem State.poll_frame (s : State) : ReadFrame s s.poll.2 := by
  have ha := s.askKey_frame
  unfold State.poll
  rcases hk : s.askKey with ⟨_ | _, s1⟩ <;> rw [hk] at ha
  · exact ha.trans (s1.poke_frame _ _ (.inl rfl))
  · have hp := (s1.poke params.kbsr 0x8000).pollChar_frame
    rcases hc : (s1.poke params.kbsr 0x8000).pollChar with ⟨_ | _, s2⟩ <;> simp only [hc] at hp ⊢
    · exact (ha.trans (s1.poke_frame _ _ (.inl rfl))).trans (hp.trans (s2.poke_frame _ _ (.inr rfl)))
    · exact (ha.trans (s1.poke_frame _ _ (.inl rfl))).trans hp

/-- A poll that fails leaves the status word set. -/
theorem State.poll_failed {s t : State} {r : IOReport} (h : s.poll = (some r, t)) : t.peek params.kbsr = 0x8000 := by
  unfold State.poll at h
  rcases hk : s.askKey with ⟨_ | _, s1⟩ <;> simp only [hk] at h
  · cases h
  · have hp : ∀ x, ((s1.poke params.kbsr 0x8000).pollChar).2.peek x = (s1.poke params.kbsr 0x8000).peek x := by
      obtain ⟨k, ks, h, e⟩ | ⟨_, e⟩ := (s1.poke params.kbsr 0x8000).pollChar_cases <;> rw [e] <;> exact fun _ => rfl
    rcases hc : (s1.poke params.kbsr 0x8000).pollChar with ⟨b | r, s2⟩ <;> simp only [hc] at hp h
    · cases h
    · cases h; rw [hp]; simp

/-- A read away from KBSR is plain. -/
theorem memRead_plain (a : Word) (s : State) (h : a ≠ params.kbsr) : memRead a s = .done (s.peek a) s := by
  simp [memRead, h]

/-- A read of KBSR polls, then returns the fresh status word or the bridge's fault. -/
theorem memRead_kbsr (s : State) :
    memRead params.kbsr s =
      match s.poll with
      | (none, s1) => .done (s1.peek params.kbsr) s1
      | (some r, s1) => .failed r s1 := by
  rcases h : s.poll with ⟨_ | r, s1⟩ <;> simp [memRead, h]

/-- A read of KBSR when the environment's next answer is that no key is there. -/
theorem memRead_noKey {s : State} {ks : List Bool} (h : s.iob.keys = false :: ks) :
    memRead params.kbsr s =
      .done 0x0000 (({ s with iob := { s.iob with keys := ks } } : State).poke params.kbsr 0x0000) := by
  rw [memRead_kbsr]
  simp only [State.poll, State.askKey, h]
  simp

/-- A read of KBSR when a key is there and the bridge has its character. -/
theorem memRead_key {s : State} {ks : List Bool} {b : Byte} {cs : List ReadResult}
    (hk : s.iob.keys = true :: ks) (hc : s.iob.input = .byte b :: cs) :
    memRead params.kbsr s =
      .done 0x8000 ((({ s with iob := { s.iob with keys := ks, input := cs } } : State).poke
        params.kbsr 0x8000).poke params.kbdr (zext16 b)) := by
  rw [memRead_kbsr]
  simp only [State.poll, State.askKey, hk, State.pollChar, State.poke_iob, hc]
  congr 1
  refine (State.poke_peek_other _ _ _ _ kbsr_ne_kbdr).trans ?_
  exact (show (s.poke params.kbsr 0x8000#16).peek params.kbsr = 0x8000#16 by simp)

/-- A read of KBSR where the environment has fixed no answer, its free answers being a key and a character. -/
theorem memRead_freeKey {s : State} {b : Byte} (h0 : s.iob.keys = [])
    (hk : s.iob.keyCursor.plain freeKeyRun = true) (hi : s.iob.input = []) (hc : s.iob.charCursor.char = .byte b) :
    memRead params.kbsr s =
      .done 0x8000 ((({ s with iob := { s.iob with
          keyCursor := s.iob.keyCursor.next freeKeyRun
          charCursor := s.iob.charCursor.next freeCharRun } } : State).poke
        params.kbsr 0x8000).poke params.kbdr (zext16 b)) := by
  rw [memRead_kbsr]
  simp only [State.poll, State.askKey, h0, hk, State.pollChar, State.poke_iob, hi, hc]
  congr 1
  refine (State.poke_peek_other _ _ _ _ kbsr_ne_kbdr).trans ?_
  exact (show (s.poke params.kbsr 0x8000#16).peek params.kbsr = 0x8000#16 by simp)

/-- A read of KBSR when a key is there and the bridge reports a fault. -/
theorem memRead_fail {s : State} {ks : List Bool} {r : IOReport} {cs : List ReadResult}
    (hk : s.iob.keys = true :: ks) (hc : s.iob.input = .fail r :: cs) :
    memRead params.kbsr s =
      .failed r (({ s with iob := { s.iob with keys := ks, input := cs } } : State).poke params.kbsr 0x8000) := by
  rw [memRead_kbsr]
  simp only [State.poll, State.askKey, hk, State.pollChar, State.poke_iob, hc]
  rfl

/-- Everything a read that answers can have done: the word is what the address then holds. -/
theorem memRead_done {a w : Word} {s t : State} (h : memRead a s = .done w t) :
    ReadFrame s t ∧ w = t.peek a := by
  unfold memRead at h
  split at h
  · have hf := s.poll_frame
    split at h
    · next s1 e => cases h; rw [e] at hf; exact ⟨hf, rfl⟩
    · cases h
  · cases h; exact ⟨ReadFrame.refl _, rfl⟩

/-- Everything a read that fails can have done: it was a poll. -/
theorem memRead_failed {a : Word} {r : IOReport} {s t : State} (h : memRead a s = .failed r t) :
    ReadFrame s t ∧ a = params.kbsr ∧ s.poll = (some r, t) := by
  unfold memRead at h
  split at h
  · next ha =>
    have hf := s.poll_frame
    split at h
    · cases h
    · next e => cases h; rw [e] at hf; exact ⟨hf, ha, e⟩
  · cases h

/-- What a read by the core depends on is the same in `s` and `t`. -/
structure SameReads (s t : State) : Prop where
  mem : t.mem = s.mem
  keys : t.iob.keys = s.iob.keys
  input : t.iob.input = s.iob.input
  keyCursor : t.iob.keyCursor = s.iob.keyCursor
  charCursor : t.iob.charCursor = s.iob.charCursor

/-- A read depends only on memory and the bridge's answers. -/
theorem memRead_sameReads {a w : Word} {s s' t : State} (h : SameReads s t) (hr : memRead a s = .done w s') :
    ∃ t', memRead a t = .done w t' ∧ SameReads s' t' := by
  obtain ⟨h1, h2, h3, h4, h5⟩ := h
  by_cases ha : a = params.kbsr
  · subst ha
    rw [memRead_kbsr] at *
    unfold State.poll State.askKey State.pollChar State.poke State.peek at *
    rcases s with ⟨_, _, _, m, _, ⟨k, i, o, f, kc, cc⟩⟩
    rcases t with ⟨_, _, _, m', _, ⟨k', i', o', f', kc', cc'⟩⟩
    simp only at h1 h2 h3 h4 h5
    subst h1 h2 h3 h4 h5
    cases k' with
    | nil =>
      cases hf : kc'.plain freeKeyRun <;> simp only [hf] at hr ⊢
      · cases hr; exact ⟨_, rfl, rfl, rfl, rfl, rfl, rfl⟩
      · cases i' with
        | nil =>
          cases hg : cc'.char <;> simp only [hg] at hr ⊢ <;> cases hr
          exact ⟨_, rfl, rfl, rfl, rfl, rfl, rfl⟩
        | cons c cs =>
          cases c <;> simp only at hr ⊢ <;> cases hr
          exact ⟨_, rfl, rfl, rfl, rfl, rfl, rfl⟩
    | cons x xs =>
      cases x <;> simp only at hr ⊢
      · cases hr; exact ⟨_, rfl, rfl, rfl, rfl, rfl, rfl⟩
      · cases i' with
        | nil =>
          cases hg : cc'.char <;> simp only [hg] at hr ⊢ <;> cases hr
          exact ⟨_, rfl, rfl, rfl, rfl, rfl, rfl⟩
        | cons c cs =>
          cases c <;> simp only at hr ⊢ <;> cases hr
          exact ⟨_, rfl, rfl, rfl, rfl, rfl, rfl⟩
  · rw [memRead_plain _ _ ha] at *
    cases hr
    exact ⟨t, by unfold State.peek; rw [h1], h1, h2, h3, h4, h5⟩

/-- Everything a load can do. -/
theorem loadInto_cases (dr : Reg) (ea : Word) (s : State) :
    (∃ w s1, memRead ea s = .done w s1 ∧ loadInto dr ea s = .next (s1.setReg dr w)) ∨
    (∃ r s1, memRead ea s = .failed r s1 ∧ loadInto dr ea s = .next { s1 with run := .faulted (.ioFault r s1.pc0) }) := by
  unfold loadInto
  cases h : memRead ea s with
  | done w s1 => exact .inl ⟨w, s1, rfl, rfl⟩
  | failed r s1 => exact .inr ⟨r, s1, rfl, rfl⟩

/-- What a string scan leaves unchanged, and how it extends the output. -/
structure ScanFrame (s t : State) : Prop where
  regs : t.regs = s.regs
  pc : t.pc = s.pc
  cond : t.cond = s.cond
  run : t.run = s.run
  wf : Memory.wf s.mem = true → Memory.wf t.mem = true
  peek : ∀ a, a ≠ params.kbsr → a ≠ params.kbdr → t.peek a = s.peek a
  output : s.iob.output <+: t.iob.output
  flushed : t.iob.flushed = s.iob.flushed
  keys : t.iob.keys <:+ s.iob.keys
  input : t.iob.input <:+ s.iob.input

theorem ReadFrame.toScan {s t : State} (f : ReadFrame s t) : ScanFrame s t :=
  ⟨f.regs, f.pc, f.cond, f.run, f.wf, f.peek, by simp [f.output], f.flushed, f.keys, f.input⟩

theorem ScanFrame.trans {s t u : State} (a : ScanFrame s t) (b : ScanFrame t u) : ScanFrame s u where
  regs := b.regs.trans a.regs
  pc := b.pc.trans a.pc
  cond := b.cond.trans a.cond
  run := b.run.trans a.run
  wf := fun h => b.wf (a.wf h)
  peek := fun x h1 h2 => (b.peek x h1 h2).trans (a.peek x h1 h2)
  output := a.output.trans b.output
  flushed := b.flushed.trans a.flushed
  keys := b.keys.trans a.keys
  input := b.input.trans a.input

theorem State.writeChars_frame (s : State) (bs : List Byte) : ScanFrame s (s.writeChars bs) :=
  ⟨rfl, rfl, rfl, rfl, id, fun _ _ _ => rfl, by simp, rfl, List.suffix_refl _, List.suffix_refl _⟩

/-- Everything a scan can have done, where it ends and where a poll fails. -/
theorem scan_frame (bytes : Word → List Byte) (fuel : Nat) (a : Word) (s : State) :
    (∀ t, scan bytes fuel a s = .ended t → ScanFrame s t) ∧
    (∀ r t, scan bytes fuel a s = .failed r t → ScanFrame s t) := by
  induction fuel generalizing a s with
  | zero => exact ⟨by simp [scan], by simp [scan]⟩
  | succ fuel ih =>
    unfold scan
    cases h : memRead a s with
    | failed r s1 =>
      refine ⟨by simp, ?_⟩
      rintro _ _ ⟨⟩
      exact (memRead_failed h).1.toScan
    | done w s1 =>
      have hf := (memRead_done h).1.toScan
      have hs := hf.trans (s1.writeChars_frame (bytes w))
      by_cases hw : w = 0
      · simp only [hw, if_true]
        exact ⟨by rintro _ ⟨⟩; exact hf, by simp⟩
      · simp only [hw, if_false]
        have ⟨i1, i2⟩ := ih (a + 1) (s1.writeChars (bytes w))
        exact ⟨fun t e => hs.trans (i1 t e), fun r t e => hs.trans (i2 r t e)⟩

/-- Everything a string routine can do. -/
theorem writeString_cases (bytes : Word → List Byte) (s : State) :
    (∃ t, ScanFrame s t ∧ writeString bytes s = .next t.flush) ∨
    (∃ r t, ScanFrame s t ∧ writeString bytes s = .next { t with run := .faulted (.ioFault r t.pc0) }) ∨
    writeString bytes s = .fault .stringHang := by
  have ⟨h1, h2⟩ := scan_frame bytes (scanFuel s) (s.reg .r0) s
  unfold writeString
  cases h : scan bytes (scanFuel s) (s.reg .r0) s with
  | ended t => exact .inl ⟨t, h1 t h, rfl⟩
  | failed r t => exact .inr (.inl ⟨r, t, h2 r t h, rfl⟩)
  | unended => exact .inr (.inr rfl)

end Sys2Proof.Machine
end

