-- ==== Sys2Proof/Laws/PerInstr.lean ====
section
/-! SUPPORT. The statements "for every instruction", one lemma per constructor. -/

namespace Sys2Proof.Laws

open Sys2Proof.Config (Slot)
open Sys2Proof.Machine (params)

/-- R83: the opcode slot an instruction belongs to. -/
def slot : Instr → Slot
  | .br .. => .br
  | .addReg .. | .addImm .. => .add
  | .ld .. => .ld
  | .st .. => .st
  | .jsr .. | .jsrr .. => .jsr
  | .andReg .. | .andImm .. => .and
  | .ldr .. => .ldr
  | .str .. => .str
  | .rti .. => .rti
  | .notReg .. => .not
  | .ldi .. => .ldi
  | .sti .. => .sti
  | .jmp .. => .jmp
  | .res .. => .res
  | .lea .. => .lea
  | .trap .. | .getc | .out | .puts | .inEcho | .putsp | .halt | .trapUnlisted .. => .trap

/-- The opcode field of an instruction word is its slot's value (R80: bits 15 to 12). -/
theorem opcodeField_wordOf (t : Slot) (x : BitVec 12) : opcodeField (wordOf t x) = params.opmap t := by
  unfold opcodeField wordOf
  apply BitVec.eq_of_getLsbD_eq
  intro i hi
  simp only [BitVec.getLsbD_extractLsb', BitVec.getLsbD_append, hi, decide_true, Bool.true_and]
  rw [if_neg (by omega), Nat.add_sub_cancel_left]

end Sys2Proof.Laws

namespace Sys2Proof.Laws.OpcodeField

open Sys2Proof.Config (Slot)
open Sys2Proof.Machine (params)

/-- R83, R88: the word of an instruction carries, in bits 15 to 12, the value `OPMAP` gives its slot. -/
def Statement (i : Instr) : Prop := opcodeField (encode i) = params.opmap (slot i)

theorem br (n z p : Bool) (off : BitVec 9) : Statement (.br n z p off) :=
  opcodeField_wordOf _ _
theorem addReg (dr sr1 sr2 : Reg) : Statement (.addReg dr sr1 sr2) :=
  opcodeField_wordOf _ _
theorem addImm (dr sr1 : Reg) (imm : BitVec 5) : Statement (.addImm dr sr1 imm) :=
  opcodeField_wordOf _ _
theorem ld (dr : Reg) (off : BitVec 9) : Statement (.ld dr off) :=
  opcodeField_wordOf _ _
theorem st (sr : Reg) (off : BitVec 9) : Statement (.st sr off) :=
  opcodeField_wordOf _ _
theorem jsr (off : BitVec 11) : Statement (.jsr off) :=
  opcodeField_wordOf _ _
theorem jsrr (base : Reg) : Statement (.jsrr base) :=
  opcodeField_wordOf _ _
theorem andReg (dr sr1 sr2 : Reg) : Statement (.andReg dr sr1 sr2) :=
  opcodeField_wordOf _ _
theorem andImm (dr sr1 : Reg) (imm : BitVec 5) : Statement (.andImm dr sr1 imm) :=
  opcodeField_wordOf _ _
theorem ldr (dr base : Reg) (off : BitVec 6) : Statement (.ldr dr base off) :=
  opcodeField_wordOf _ _
theorem str (sr base : Reg) (off : BitVec 6) : Statement (.str sr base off) :=
  opcodeField_wordOf _ _
theorem rti (u : BitVec 12) : Statement (.rti u) :=
  opcodeField_wordOf _ _
theorem notReg (dr sr1 : Reg) : Statement (.notReg dr sr1) :=
  opcodeField_wordOf _ _
theorem ldi (dr : Reg) (off : BitVec 9) : Statement (.ldi dr off) :=
  opcodeField_wordOf _ _
theorem sti (sr : Reg) (off : BitVec 9) : Statement (.sti sr off) :=
  opcodeField_wordOf _ _
theorem jmp (base : Reg) : Statement (.jmp base) :=
  opcodeField_wordOf _ _
theorem res (u : BitVec 12) : Statement (.res u) :=
  opcodeField_wordOf _ _
theorem lea (dr : Reg) (off : BitVec 9) : Statement (.lea dr off) :=
  opcodeField_wordOf _ _
theorem trap (v : Byte) : Statement (.trap v) :=
  opcodeField_wordOf _ _
theorem getc : Statement .getc :=
  opcodeField_wordOf _ _
theorem out : Statement .out :=
  opcodeField_wordOf _ _
theorem puts : Statement .puts :=
  opcodeField_wordOf _ _
theorem inEcho : Statement .inEcho :=
  opcodeField_wordOf _ _
theorem putsp : Statement .putsp :=
  opcodeField_wordOf _ _
theorem halt : Statement .halt :=
  opcodeField_wordOf _ _
theorem trapUnlisted (v : Byte) : Statement (.trapUnlisted v) :=
  opcodeField_wordOf _ _

end Sys2Proof.Laws.OpcodeField
end

