-- ==== Sys2Proof/Laws/Step.lean ====
section
/-! SUPPORT. What a step can do, said once. -/

namespace Sys2Proof.Machine

/-- A step that answers a next state: the machine was RUNNING, and the fetch read a word, whose
instruction ran on the state with the PC advanced, or the fetch's poll failed and the run ended. -/
theorem step_cases {s t : State} (h : step s = .next t) : s.run = .running ∧
    ((∃ ir s1, fetch s = .done ir s1 ∧ ReadFrame s s1 ∧ exec (decode ir) s1.advance = .next t) ∨
     (∃ r s1, fetch s = .failed r s1 ∧ ReadFrame s s1 ∧
        t = { s1 with run := .faulted (.ioFault r s.pc) })) := by
  unfold step at h
  cases hr : s.run <;> rw [hr] at h <;> try cases h
  refine ⟨rfl, ?_⟩
  cases hf : fetch s with
  | done ir s1 =>
    simp only [hf] at h
    exact .inl ⟨ir, s1, rfl, (memRead_done hf).1, h⟩
  | failed r s1 =>
    simp only [hf] at h
    cases h
    exact .inr ⟨r, s1, rfl, (memRead_failed hf).1, rfl⟩

/-- Placing a fetch word leaves the registers, the PC, the flag and the bridge. -/
theorem State.withFetchWord_frame (s : State) (nbits w : Nat) :
    (s.withFetchWord nbits w).regs = s.regs ∧ (s.withFetchWord nbits w).pc = s.pc ∧
    (s.withFetchWord nbits w).cond = s.cond ∧ (s.withFetchWord nbits w).iob = s.iob ∧
    (s.withFetchWord nbits w).run = .running := ⟨rfl, rfl, rfl, rfl, rfl⟩

end Sys2Proof.Machine
end

