-- ==== Sys2Proof/Tests/Slice0.lean ====
section
/-! SUPPORT. The model's own tests. The expected results of the one-step tests are the rows of
95_test_vectors.md named in each theorem's name or docstring, worked out there from the rules by hand;
the words of the decode tests are written out from the layout table 30_encoding.md R88. The last part
shows, for every obligation with hypotheses, values that meet them. -/

namespace Sys2Proof.Tests

open Sys2Proof.Config Sys2Proof.Machine Sys2Proof.Claims

/-! ### Helpers -/

/-- The next state of an outcome. -/
def after : Result → Option State
  | .next t => some t
  | .fault _ => none
  | .refused _ => none

/-- The fault of an outcome. -/
def stop : Result → Option Fault
  | .next _ => none
  | .fault f => some f
  | .refused _ => none

/-- The start of a vector (95_test_vectors.md section 0): RUNNING, all else as after reset, the
instruction word at `pc`. -/
def vec (pc w : Word) : State := ({ State.reset with run := .running, pc := pc } : State).poke pc w

/-- Set a register before a vector. -/
def reg (r : Reg) (v : Word) (s : State) : State := s.setRegQuiet r v

/-- Set a word of memory before a vector. -/
def word (a v : Word) (s : State) : State := s.poke a v

/-- Set the flag before a vector. -/
def flag (c : Cond) (s : State) : State := { s with cond := c }

/-- Fix the answers of the environment before a vector. -/
def bridge (ks : List Bool) (cs : List ReadResult) (s : State) : State := withAnswers s ks cs ⟨0, 0⟩ ⟨0, 0⟩

/-- What a vector lists of a register's new value, the PC and the flag. -/
def view (r : Reg) (x : Result) : Option (Word × Word × Cond) :=
  (after x).map fun t => (t.reg r, t.pc, t.cond)

/-- What a vector lists of a word of memory, the PC and the flag. -/
def viewMem (a : Word) (x : Result) : Option (Word × Word × Cond) :=
  (after x).map fun t => (t.peek a, t.pc, t.cond)

/-- What a vector lists of the output and R7. -/
def viewOut (x : Result) : Option (List Byte × Word) :=
  (after x).map fun t => (t.iob.output, t.reg .r7)

/-- The run state a vector lists. -/
def viewRun (x : Result) : Option RunState := (after x).map fun t => t.run

/-! ### WellFormed: an ill-formed term for each check -/

theorem test_wf_trap_generic : (Instr.trap 0x25).wellFormed = false := by decide
theorem test_wf_trap_listed : (Instr.trapUnlisted 0x25).wellFormed = false := by decide
theorem test_wf_trap_unlisted : (Instr.trapUnlisted 0x26).wellFormed = true := by decide
theorem test_wf_params : params.wellFormed = true := by decide
theorem test_wf_params_opmap : ({ params with opmap := fun _ => 0 } : Params).wellFormed = false := by decide
theorem test_wf_params_trapvec : ({ params with trapvec := fun _ => 0x25 } : Params).wellFormed = false := by
  decide
theorem test_wf_params_device : ({ params with kbdr := 0xFE00 } : Params).wellFormed = false := by decide

/-! ### Decode: one word per constructor, bits as R88 lays them out -/

/-- 0000 n z p off9: n = 1, z = 0, p = 1, off = 100000001. -/
theorem test_decode_br : decode 0b0000_101_100000001 = .br true false true 0x101 := by decide
/-- 0001 DR SR1 0 xx SR2, junk in the unused bits 4 and 3 (vector A10). -/
theorem test_decode_addReg : decode 0b0001_110_101_0_11_010 = .addReg .r6 .r5 .r2 := by decide
theorem test_decode_addImm : decode 0b0001_001_100_1_10000 = .addImm .r1 .r4 0x10 := by decide
theorem test_decode_ld : decode 0b0010_011_100000000 = .ld .r3 0x100 := by decide
theorem test_decode_st : decode 0b0011_111_011111111 = .st .r7 0x0FF := by decide
theorem test_decode_jsr : decode 0b0100_1_10000000001 = .jsr 0x401 := by decide
/-- 0100 0 xx BaseR xxxxxx, junk in every unused bit. -/
theorem test_decode_jsrr : decode 0b0100_0_11_011_111111 = .jsrr .r3 := by decide
theorem test_decode_andReg : decode 0b0101_100_010_0_00_001 = .andReg .r4 .r2 .r1 := by decide
theorem test_decode_andImm : decode 0b0101_010_110_1_01111 = .andImm .r2 .r6 0x0F := by decide
theorem test_decode_ldr : decode 0b0110_001_110_100000 = .ldr .r1 .r6 0x20 := by decide
theorem test_decode_str : decode 0b0111_101_011_011111 = .str .r5 .r3 0x1F := by decide
theorem test_decode_rti : decode 0b1000_101010111100 = .rti 0xABC := by decide
/-- 1001 DR SR1 xxxxxx with the low six bits 0 (vector O5). -/
theorem test_decode_notReg : decode 0b1001_001_010_000000 = .notReg .r1 .r2 := by decide
theorem test_decode_ldi : decode 0b1010_110_000000001 = .ldi .r6 0x001 := by decide
theorem test_decode_sti : decode 0b1011_011_100000001 = .sti .r3 0x101 := by decide
/-- 1100 xxx BaseR xxxxxx, junk in the unused bits (vector J3). -/
theorem test_decode_jmp : decode 0b1100_111_010_000111 = .jmp .r2 := by decide
theorem test_decode_res : decode 0b1101_000000000001 = .res 0x001 := by decide
theorem test_decode_lea : decode 0b1110_100_111111110 = .lea .r4 0x1FE := by decide
theorem test_decode_trap_row : decodeFields 0b1111_0000_00100011 = .trap 0x23 := by decide
theorem test_decode_getc : decode 0b1111_0000_00100000 = .getc := by decide
theorem test_decode_out : decode 0b1111_0000_00100001 = .out := by decide
theorem test_decode_puts : decode 0b1111_0000_00100010 = .puts := by decide
theorem test_decode_inEcho : decode 0b1111_0000_00100011 = .inEcho := by decide
theorem test_decode_putsp : decode 0b1111_0000_00100100 = .putsp := by decide
/-- Vector T16: bits 11 to 8 are ignored. -/
theorem test_decode_halt : decode 0b1111_1111_00100101 = .halt := by decide
theorem test_decode_trapUnlisted : decode 0b1111_1111_11111111 = .trapUnlisted 0xFF := by decide

theorem test_decode_bytes : decodeBytes [0xC1, 0xC0, 0x80] = .ok (.jmp .r7, [0x80]) := by decide
theorem test_decode_bytes_short : decodeBytes [0xC1] = .error .incompleteWord := by decide
theorem test_decode_table_word : decodeTableWord 16 0x40C0 = some (.jsrr .r3) := by decide
theorem test_decode_table_long : decodeTableWord 24 0x40C0 = none := by decide
theorem test_encode_lea : encode (.lea .r0 3) = 0xE003 := by decide
theorem test_encode_halt : encode .halt = 0xF025 := by decide

/-- 30_encoding.md R86 through 95_test_vectors.md 4.1, the "off-by-one traps" among them. -/
theorem test_sext : sext (0x10 : BitVec 5) = 0xFFF0 ∧ sext (0x0F : BitVec 5) = 0x000F ∧
    sext (0x1F : BitVec 6) = 0x001F ∧ sext (0x20 : BitVec 6) = 0xFFE0 ∧
    sext (0x0FF : BitVec 9) = 0x00FF ∧ sext (0x100 : BitVec 9) = 0xFF00 ∧
    sext (0x3FF : BitVec 11) = 0x03FF ∧ sext (0x400 : BitVec 11) = 0xFC00 := by decide

/-! ### One step: the vectors of 95_test_vectors.md -/

theorem test_add_A2 : view .r0 (step (vec 0x3000 0x1042 |> reg .r1 0xFFFF |> reg .r2 1 |> flag .p)) =
    some (0x0000, 0x3001, .z) := by decide
theorem test_add_A5 : view .r1 (step (vec 0x3000 0x1241 |> reg .r1 0x4000)) =
    some (0x8000, 0x3001, .n) := by decide
theorem test_addImm_A1 : view .r0 (step (vec 0x3000 0x107F |> reg .r1 5)) = some (4, 0x3001, .p) := by decide
theorem test_addImm_A7 : view .r0 (step (vec 0x3000 0x1030 |> reg .r0 0x10 |> flag .p)) =
    some (0, 0x3001, .z) := by decide
theorem test_and_N6 : view .r1 (step (vec 0x3000 0x5241 |> reg .r1 0x8000 |> flag .p)) =
    some (0x8000, 0x3001, .n) := by decide
theorem test_andImm_N5 : view .r0 (step (vec 0x3000 0x5070 |> reg .r1 0xABCD)) =
    some (0xABC0, 0x3001, .n) := by decide
theorem test_not_O4 : view .r0 (step (vec 0x3000 0x903F |> reg .r0 0x8000 |> flag .n)) =
    some (0x7FFF, 0x3001, .p) := by decide

theorem test_br_B1 : view .r7 (step (vec 0x3005 0x05FD)) = some (0, 0x3003, .z) := by decide
theorem test_br_B6 : view .r7 (step (vec 0x0000 0x0FFE |> flag .n)) = some (0, 0xFFFF, .n) := by decide
theorem test_br_B9 : view .r7 (step (vec 0x3000 0x0C05 |> flag .p)) = some (0, 0x3001, .p) := by decide
theorem test_jmp_J3 : view .r7 (step (vec 0x3000 0xCE87 |> reg .r2 0x1234)) = some (0, 0x1234, .z) := by decide
theorem test_jsr_S3 : view .r7 (step (vec 0x8000 0x4C00)) = some (0x8001, 0x7C01, .n) := by decide
theorem test_jsr_S4 : view .r7 (step (vec 0xFFFF 0x4BFF |> flag .p)) = some (0, 0x03FF, .z) := by decide
theorem test_jsrr_S6 : view .r7 (step (vec 0x3000 0x41C0 |> reg .r7 0x5000)) =
    some (0x3001, 0x3001, .p) := by decide
theorem test_jsrr_S7 : view .r7 (step (vec 0x7FFF 0x40C0 |> reg .r3 0x10)) =
    some (0x8000, 0x0010, .n) := by decide

theorem test_ld_L1 : view .r2 (step (vec 0x3000 0x2405 |> word 0x3006 0xBEEF)) =
    some (0xBEEF, 0x3001, .n) := by decide
theorem test_ldi_L4 : view .r2 (step (vec 0x00F0 0xA40F |> word 0x100 0x123 |> word 0x123 0x42)) =
    some (0x0042, 0x00F1, .p) := by decide
/-- L5: the second read polls and takes the key. -/
theorem test_ldi_L5 : (after (step (vec 0x3000 0xA001 |> word 0x3002 0xFE00 |>
      bridge [true] [.byte 0x41]))).map
      (fun t => (t.reg .r0, t.peek 0xFE00, t.peek 0xFE02, t.cond, t.iob.input)) =
    some (0x8000, 0x8000, 0x0041, .n, []) := by decide
theorem test_ldr_L9 : view .r1 (step (vec 0x3000 0x6240 |> reg .r1 0x4000 |> word 0x4000 0x9000)) =
    some (0x9000, 0x3001, .n) := by decide
theorem test_ldr_L10 : view .r0 (step (vec 0x3000 0x607F |> word 0xFFFF 1)) = some (1, 0x3001, .p) := by decide
/-- L7: reading KBDR is plain. -/
theorem test_kbdr_L7 : (after (step (vec 0x3000 0xA001 |> word 0x3002 0xFE02 |> word 0xFE02 0x41 |>
      word 0xFE00 0x8000 |> bridge [true] [.byte 0x42]))).map
      (fun t => (t.reg .r0, t.peek 0xFE00, t.peek 0xFE02, t.iob.keys)) =
    some (0x41, 0x8000, 0x41, [true]) := by decide
theorem test_lea_L14 : view .r0 (step (vec 0x7FFF 0xE000)) = some (0x8000, 0x8000, .n) := by decide
theorem test_lea_L15 : view .r0 (step (vec 0xFFFF 0xE000 |> flag .p)) = some (0, 0, .z) := by decide

theorem test_st_W1 : viewMem 0x3005 (step (vec 0x3000 0x3604 |> reg .r3 0x1234 |> flag .n)) =
    some (0x1234, 0x3001, .n) := by decide
theorem test_st_W2 : viewMem 0x3000 (step (vec 0x3000 0x37FF |> reg .r3 0x1234)) =
    some (0x1234, 0x3001, .z) := by decide
theorem test_sti_W3 : viewMem 0x4000 (step (vec 0x3000 0xB604 |> reg .r3 0xAA |> word 0x3005 0x4000)) =
    some (0x00AA, 0x3001, .z) := by decide
theorem test_sti_W4 : viewMem 0x3002 (step (vec 0x3000 0xB601 |> reg .r3 0x55 |> word 0x3002 0x3002)) =
    some (0x0055, 0x3001, .z) := by decide
theorem test_str_W6 : viewMem 0x4000 (step (vec 0x3000 0x7240 |> reg .r1 0x4000)) =
    some (0x4000, 0x3001, .z) := by decide
theorem test_str_W7 : viewMem 0xFFF0 (step (vec 0x3000 0x7060 |> reg .r1 0x10 |> reg .r0 7)) =
    some (0x0007, 0x3001, .z) := by decide
/-- W9: a store to KBSR is plain. -/
theorem test_store_W9 : (after (step (vec 0x3000 0xB001 |> reg .r0 0xFF |> word 0x3002 0xFE00 |>
      bridge [true] [.byte 0x41]))).map (fun t => (t.peek 0xFE00, t.iob.keys)) =
    some (0x00FF, [true]) := by decide

theorem test_getc_T3 : (after (step (vec 0x3000 0xF020 |> bridge [] [.byte 0xE9]))).map
      (fun t => (t.reg .r0, t.reg .r7, t.cond, t.pc)) =
    some (0x00E9, 0x3001, .p, 0x3001) := by decide
theorem test_getc_T4 : (after (step (vec 0x3000 0xF020 |> bridge [] [.fail .endOfInput]))).map
      (fun t => (t.reg .r0, t.reg .r7, t.cond, t.run)) =
    some (0, 0x3001, .p, .faulted (.ioFault .endOfInput 0x3000)) := by decide
theorem test_out_T5 : viewOut (step (vec 0x3000 0xF021 |> reg .r0 0x1248)) = some ([0x48], 0x3001) := by decide
theorem test_puts_T8 : viewOut (step (vec 0x3000 0xF022 |> reg .r0 0x3010 |> word 0x3010 0x4100 |>
      word 0x3011 0x0142)) = some ([0x00, 0x42], 0x3001) := by decide +kernel
theorem test_puts_T17 : viewOut (step (vec 0x3000 0xF022 |> reg .r0 0xFFFF |> word 0xFFFF 0x41 |>
      word 0x0000 0x42)) = some ([0x41, 0x42], 0x3001) := by decide +kernel
/-- T9. -/
theorem test_in_T9 : (after (step (vec 0x3000 0xF023 |> bridge [] [.byte 0x79]))).map
      (fun t => (t.reg .r0, t.reg .r7, t.iob.output)) =
    some (0x79, 0x3001, [0x45, 0x6E, 0x74, 0x65, 0x72, 0x20, 0x61, 0x20, 0x63, 0x68,
      0x61, 0x72, 0x61, 0x63, 0x74, 0x65, 0x72, 0x3A, 0x20, 0x79]) := by decide
/-- T18. -/
theorem test_in_T18 : (after (step (vec 0x3000 0xF023 |> bridge [] [.fail .endOfInput]))).map
      (fun t => (t.reg .r0, t.reg .r7, t.iob.output.length, t.run)) =
    some (0, 0x3001, 19, .faulted (.ioFault .endOfInput 0x3000)) := by decide
theorem test_putsp_T10 : viewOut (step (vec 0x3000 0xF024 |> reg .r0 0x3010 |> word 0x3010 0x4F48)) =
    some ([0x48, 0x4F], 0x3001) := by decide +kernel
theorem test_putsp_T11 : viewOut (step (vec 0x3000 0xF024 |> reg .r0 0x3010 |> word 0x3010 0x0048 |>
      word 0x3011 0x4F00 |> word 0x3012 0x2121)) =
    some ([0x48, 0x00, 0x4F, 0x21, 0x21], 0x3001) := by decide +kernel
theorem test_halt_T12 : viewRun (step (vec 0x3005 0xF025)) = some .halted := by decide
theorem test_halt_T13 : view .r7 (step (vec 0x7FFF 0xF025)) = some (0x8000, 0x8000, .n) := by decide
theorem test_trapUnlisted_T15 : viewRun (step (vec 0x3000 0xF000)) =
    some (.faulted (.unknownTrapVector 0x00 0x3000)) := by decide
theorem test_trapUnlisted_link : view .r7 (step (vec 0x3000 0xF000)) = some (0x3001, 0x3001, .p) := by decide
/-- The generic row, on the state after the fetch: vector 0x21 is OUT (T5). -/
theorem test_trap_row : viewOut (exec (.trap 0x21) (vec 0x3001 0 |> reg .r0 0x1248)) =
    some ([0x48], 0x3001) := by decide
theorem test_rti_U3 : viewRun (step (vec 0x3000 0x8ABC)) =
    some (.faulted (.unknownOpcode .rti 0x8ABC 0x3000)) := by decide
theorem test_rti_U1 : view .r7 (step (vec 0x3000 0x8000)) = some (0, 0x3001, .z) := by decide
theorem test_res_U2 : viewRun (step (vec 0x3000 0xD000 |> reg .r1 5 |> flag .n)) =
    some (.faulted (.unknownOpcode .res 0xD000 0x3000)) := by decide

theorem test_fetch_F1 : view .r7 (step (vec 0xFFFF 0x0000)) = some (0, 0x0000, .z) := by decide
theorem test_fetch_F3 : (after (step (vec 0xFE00 0 |> bridge [true] [.byte 0x41]))).map
      (fun t => (t.peek 0xFE00, t.peek 0xFE02, t.pc, t.run)) =
    some (0x8000, 0x41, 0xFE01, .faulted (.unknownOpcode .rti 0x8000 0xFE00)) := by decide
theorem test_fetch_F4 : (after (step (vec 0xFE00 0xF025 |> bridge [false] []))).map
      (fun t => (t.peek 0xFE00, t.pc, t.cond, t.run)) =
    some (0x0000, 0xFE01, .z, .running) := by decide
theorem test_fetch_F5 : (after (step (vec 0xFE00 0 |> bridge [true] [.fail .endOfInput]))).map
      (fun t => (t.peek 0xFE00, t.pc, t.run)) =
    some (0x8000, 0xFE00, .faulted (.ioFault .endOfInput 0xFE00)) := by decide

/-- R117, R241, R276: the three run states that take no step. -/
theorem test_no_step : stop (step State.reset) = some .notBooted ∧
    stop (step { State.reset with run := .halted }) = some .halted ∧
    stop (step { State.reset with run := .faulted (.ioFault .error 0) }) = some .faulted := by decide

/-- The host's hook: S4's word as the first instruction after reset. -/
theorem test_withFetchWord : view .r0 (step (State.reset.withFetchWord 16 0x103F)) =
    some (0xFFFF, 0x3001, .n) := by decide

/-! ### The loader: the vectors of 95_test_vectors.md section 5 -/

/-- One word of the memory an image leaves, loaded on the reset state. -/
def loaded (b : List Byte) (a : Word) : Option Word :=
  match loadImage b State.reset with
  | .ok t => some (t.peek a)
  | .error _ => none

theorem test_load_LD1 : loaded [0x30, 0x00, 0x12, 0x34, 0xAB, 0xCD] 0x3001 = some 0xABCD := by decide
theorem test_load_LD4 : loaded [0x30, 0x00, 0x12, 0x34, 0xAB] 0x3001 = some 0 := by decide
theorem test_load_LD5 : loaded [0xFF, 0xFE, 0x11, 0x11, 0x22, 0x22, 0x33, 0x33] 0xFFFF = some 0x2222 ∧
    loaded [0xFF, 0xFE, 0x11, 0x11, 0x22, 0x22, 0x33, 0x33] 0x0000 = some 0 := by decide
theorem test_load_LD6 : (boot [[0x30, 0x00, 0x11, 0x11, 0x22, 0x22], [0x30, 0x01, 0x33, 0x33]]).mem =
    [(0x3000, 0x1111), (0x3001, 0x3333)] := by decide
theorem test_load_LD7 : loaded [0x30] 0x3000 = none ∧ (boot [[0x30]]).run = .boot := by decide
theorem test_load_LD9 : (boot [[0x40, 0x00, 0xF0, 0x25]]).pc = 0x3000 ∧
    (boot [[0x40, 0x00, 0xF0, 0x25]]).run = .running := by decide

/-- R9: answers are taken in the order the environment gave them. -/
theorem test_deliver_order :
    (((State.reset.deliverChar (.byte 1)).deliverChar (.byte 2)).deliverKey true).iob.input =
      [.byte 1, .byte 2] := by decide

/-! ### Witnesses: values that meet the hypotheses of each obligation that has some -/

theorem witness_SignExtension_narrow : (0 < 1 ∧ 1 ≤ 16) ∧ (sext (1 : BitVec 1)).toInt = -1 := by decide
theorem witness_SignExtension_wide : (0 < 16 ∧ 16 ≤ 16) ∧ (sext (0x8000 : BitVec 16)).toInt = -32768 := by decide

/-- S6: JSR #2 at 0x3000, JMP R7 at 0x3003. -/
theorem witness_CallReturnsBehindJsr :
    let s := vec 0x3000 0x4802 |> word 0x3003 0xC1C0
    Runs s (.jsr 2) ∧ plusSigned (s.pc + 1) (2 : BitVec 11) ≠ params.kbsr ∧
      decode (s.peek (plusSigned (s.pc + 1) (2 : BitVec 11))) = .jmp .r7 := by
  unfold Runs; decide

theorem witness_CanonicalMemoriesAgree :
    let m := Memory.write (Memory.write [] 0 1) 65535 2
    let m' := Memory.write (Memory.write (Memory.write [] 65535 2) 7 9) 0 1
    Memory.wf m = true ∧ Memory.wf (Memory.write m' 7 0) = true ∧
      ∀ a : Word, Memory.read m a.toNat = Memory.read (Memory.write m' 7 0) a.toNat :=
  ⟨by decide, by decide, fun _ => rfl⟩

/-- The two neighbours of KBSR, and KBDR. -/
theorem witness_MemRead_plain : (0xFDFF : Word) ≠ params.kbsr ∧ (0xFE01 : Word) ≠ params.kbsr ∧
    params.kbdr ≠ params.kbsr := by decide
theorem witness_MemRead_noKey : (vec 0 0 |> bridge [false, true] []).iob.keys = false :: [true] := rfl
theorem witness_MemRead_key : (vec 0 0 |> bridge [true] [.byte 0xFF]).iob.keys = true :: [] ∧
    (vec 0 0 |> bridge [true] [.byte 0xFF]).iob.input = .byte 0xFF :: [] := ⟨rfl, rfl⟩
theorem witness_MemRead_fail : (vec 0 0 |> bridge [true] [.fail .error]).iob.keys = true :: [] ∧
    (vec 0 0 |> bridge [true] [.fail .error]).iob.input = .fail .error :: [] := ⟨rfl, rfl⟩

/-- The extreme offsets, from a PC right behind the device word. -/
theorem witness_LoadPcRelative_plain : plusSigned (vec 0xFE01 0).pc (0x100 : BitVec 9) ≠ params.kbsr ∧
    plusSigned (vec 0xFE01 0).pc (0x0FF : BitVec 9) ≠ params.kbsr := by decide
theorem witness_LoadPcRelative_done :
    ∃ w s1, memRead (plusSigned 0xFE01 (0x1FF : BitVec 9)) (vec 0xFE01 0 |> bridge [false] []) = .done w s1 :=
  ⟨_, _, rfl⟩
theorem witness_LoadPcRelative_failed :
    ∃ r s1, memRead (plusSigned 0xFE01 (0x1FF : BitVec 9))
      (vec 0xFE01 0 |> bridge [true] [.fail .endOfInput]) = .failed r s1 := ⟨_, _, rfl⟩

theorem witness_LoadBaseOffset_plain :
    plusSigned ((vec 0 0 |> reg .r1 0xFE20).reg .r1) (0x1F : BitVec 6) ≠ params.kbsr := by decide
theorem witness_LoadBaseOffset_done :
    ∃ w s1, memRead (plusSigned ((vec 0 0 |> reg .r1 0xFE20).reg .r1) (0x20 : BitVec 6))
      (vec 0 0 |> reg .r1 0xFE20 |> bridge [false] []) = .done w s1 := ⟨_, _, rfl⟩
theorem witness_LoadBaseOffset_failed :
    ∃ r s1, memRead (plusSigned ((vec 0 0 |> reg .r1 0xFE20).reg .r1) (0x20 : BitVec 6))
      (vec 0 0 |> reg .r1 0xFE20 |> bridge [true] [.fail .error]) = .failed r s1 := ⟨_, _, rfl⟩

theorem witness_LoadIndirect_plain :
    let s := vec 0x3000 0 |> word 0x30FF 0xFE02
    plusSigned s.pc (0x0FF : BitVec 9) ≠ params.kbsr ∧
      s.peek (plusSigned s.pc (0x0FF : BitVec 9)) ≠ params.kbsr := by decide
/-- A pointer read that gives KBSR, then an operand read that polls. -/
theorem witness_LoadIndirect_done :
    let s := vec 0x3000 0 |> word 0x3002 0xFE00 |> bridge [true] [.byte 0x41]
    ∃ ea s1 w s2, memRead (plusSigned s.pc (2 : BitVec 9)) s = .done ea s1 ∧ memRead ea s1 = .done w s2 :=
  ⟨_, _, _, _, rfl, rfl⟩
theorem witness_LoadIndirect_pointerFails :
    let s := vec 0xFE01 0 |> bridge [true] [.fail .endOfInput]
    ∃ r s1, memRead (plusSigned s.pc (0x1FF : BitVec 9)) s = .failed r s1 := ⟨_, _, rfl⟩
theorem witness_LoadIndirect_operandFails :
    let s := vec 0x3000 0 |> word 0x3002 0xFE00 |> bridge [true] [.fail .error]
    ∃ ea s1 r s2, memRead (plusSigned s.pc (2 : BitVec 9)) s = .done ea s1 ∧ memRead ea s1 = .failed r s2 :=
  ⟨_, _, _, _, rfl, rfl⟩

theorem witness_StoreIndirect_plain :
    plusSigned (vec 0xFDFE 0).pc (1 : BitVec 9) ≠ params.kbsr := by decide
theorem witness_StoreIndirect_done :
    let s := vec 0xFE01 0 |> bridge [false] []
    ∃ ea s1, memRead (plusSigned s.pc (0x1FF : BitVec 9)) s = .done ea s1 := ⟨_, _, rfl⟩
theorem witness_StoreIndirect_failed :
    let s := vec 0xFE01 0 |> bridge [true] [.fail .error]
    ∃ r s1, memRead (plusSigned s.pc (0x1FF : BitVec 9)) s = .failed r s1 := ⟨_, _, rfl⟩

/-- The three loads, each with KBSR as the address of its operand read. -/
theorem witness_LoadOfStatusPolls_address :
    operandAddress (.ld .r7 0x1FF) (vec 0xFE01 0) = some (.r7, params.kbsr) ∧
    operandAddress (.ldr .r0 .r1 0x20) (vec 0 0 |> reg .r1 0xFE20) = some (.r0, params.kbsr) ∧
    operandAddress (.ldi .r2 1) (vec 0x3001 0 |> word 0x3002 0xFE00) = some (.r2, params.kbsr) := by decide
theorem witness_LoadOfStatusPolls_noKey :
    let s := vec 0xFE01 0 |> bridge [false] []
    operandAddress (.ld .r7 0x1FF) s = some (.r7, params.kbsr) ∧ s.iob.keys = false :: [] := by decide
theorem witness_LoadOfStatusPolls_key :
    let s := vec 0xFE01 0 |> bridge [true] [.byte 0]
    operandAddress (.ld .r7 0x1FF) s = some (.r7, params.kbsr) ∧ s.iob.keys = true :: [] ∧
      s.iob.input = .byte 0 :: [] := by decide
theorem witness_LoadOfStatusPolls_fail :
    let s := vec 0xFE01 0 |> bridge [true] [.fail .error]
    operandAddress (.ld .r7 0x1FF) s = some (.r7, params.kbsr) ∧ s.iob.keys = true :: [] ∧
      s.iob.input = .fail .error :: [] := by decide

theorem witness_GetcReadsCharacter : (vec 0xFFFF 0xF020 |> bridge [] [.byte 0x80]).iob.input =
    .byte 0x80 :: [] := rfl
theorem witness_InPromptsAndEchoes : (vec 0x3000 0xF023 |> bridge [] [.byte 0]).iob.input =
    .byte 0 :: [] := rfl

theorem witness_InputTrapsWait_getc :
    let s := vec 0x0000 0xF020
    s.iob.input = [] ∧ Runs s .getc := by unfold Runs; decide
theorem witness_InputTrapsWait_in :
    let s := vec 0xFFFF 0xF023
    s.iob.input = [] ∧ Runs s .inEcho := by unfold Runs; decide
theorem witness_InputTrapsFault : (vec 0x3000 0xF023 |> bridge [] [.fail .endOfInput]).iob.input =
    .fail .endOfInput :: [] := rfl

/-- A string of two words that wraps at the top of memory. -/
theorem witness_StringAt : StringAt (vec 0x3000 0xF022 |> reg .r0 0xFFFF |> word 0xFFFF 0x41 |>
      word 0x0000 0x4F00) 0xFFFF [0x41, 0x4F00] := by
  refine ⟨by decide, by simp, fun k h => ?_, by decide, fun k h => ?_⟩
  · match k, h with
    | 0, _ => rfl
    | 1, _ => rfl
  · match k, h with
    | 0, _ => decide
    | 1, _ => decide
    | 2, _ => decide
/-- The empty string. -/
theorem witness_StringAt_empty : StringAt (vec 0x3000 0xF022 |> reg .r0 0x3010) 0x3010 [] := by
  refine ⟨by decide, by simp, fun k h => absurd h (Nat.not_lt_zero k), by decide, fun k h => ?_⟩
  match k, h with
  | 0, _ => decide
theorem witness_StringRoutinesEnd : (0x0000 : Word) ≠ params.kbsr ∧ (0x0000 : Word) ≠ params.kbdr ∧
    (vec 0x3000 0xF022).peek 0x0000 = 0 ∧ (0xFE01 : Word) ≠ params.kbsr ∧ (0xFE01 : Word) ≠ params.kbdr ∧
    (vec 0x3000 0xF022).peek 0xFE01 = 0 := by decide
/-- Two words that end nothing, and a third that ends the string. -/
theorem witness_NothingEnds :
    let s := vec 0x3000 0xF022 |> word 0x3010 0x41 |> word 0x3011 0x42
    NothingEnds 2 0x3010 s ∧ ¬ NothingEnds 3 0x3010 s :=
  ⟨⟨0x41, _, rfl, by decide, 0x42, _, rfl, by decide, trivial⟩,
    fun ⟨_, _, h1, _, _, _, h2, _, _, _, h3, n, _⟩ => by cases h1; cases h2; cases h3; exact n rfl⟩

theorem read_filled (a n s : Nat) (h1 : s ≤ a) (h2 : a < s + n) :
    Memory.read ((List.range' s n).map fun k => (k, (1 : Word))) a = 1 := by
  induction n generalizing s with
  | zero => omega
  | succ n ih =>
    rw [List.range'_succ, List.map_cons, Memory.read]
    split
    · rfl
    · exact ih (s + 1) (by omega) (by omega)

/-- Where memory has no zero word and the free answers of the environment are for ever a key with a character
that is not 0, nothing ends a string, however long the scan: the hang of R205 is reached. -/
theorem witness_StringHang (hk : freeKeyRun 0 = none) (hc : freeCharRun 0 = none) :
    ∃ s : State, (∀ a, s.peek a ≠ 0) ∧ ∀ n a, NothingEnds n a s := by
  have key : ∀ n a (s : State), (∀ x, s.peek x ≠ 0) → s.iob.keys = [] → s.iob.input = [] →
      s.iob.keyCursor.run = 0 → s.iob.charCursor.run = 0 → NothingEnds n a s := by
    intro n
    induction n with
    | zero => intros; trivial
    | succ n ih =>
      intro a s hz k0 i0 kr cr
      by_cases ha : a = params.kbsr
      · have hp : s.iob.keyCursor.plain freeKeyRun = true := by unfold FreeCursor.plain; rw [kr, hk]
        have hq : s.iob.charCursor.plain freeCharRun = true := by unfold FreeCursor.plain; rw [cr, hc]
        obtain ⟨b, hb, b0⟩ := FreeCursor.char_plain hq
        subst ha
        refine ⟨_, _, memRead_freeKey k0 hp i0 hb, by decide, ih _ _ (fun x => ?_) k0 i0 ?_ ?_⟩
        · by_cases h1 : x = params.kbdr
          · rw [h1, State.poke_peek_same]
            intro e
            apply b0
            have e' := congrArg BitVec.toNat e
            have := b.isLt
            apply BitVec.eq_of_toNat_eq
            simp [zext16] at e' ⊢
            omega
          · rw [State.poke_peek_other _ _ _ _ h1]
            by_cases h2 : x = params.kbsr
            · rw [h2, State.poke_peek_same]; decide
            · rw [State.poke_peek_other _ _ _ _ h2]; exact hz x
        · show (s.iob.keyCursor.next freeKeyRun).run = 0
          unfold FreeCursor.next; rw [hp]; exact kr
        · show (s.iob.charCursor.next freeCharRun).run = 0
          unfold FreeCursor.next; rw [hq]; exact cr
      · exact ⟨_, _, memRead_plain a s ha, hz a, ih _ _ hz k0 i0 kr cr⟩
  let s : State := { State.reset with mem := (List.range' 0 65536).map fun k => (k, (1 : Word)) }
  have hz : ∀ a, s.peek a ≠ 0 := fun a => by
    have : s.peek a = 1 := read_filled a.toNat 65536 0 (Nat.zero_le _) (by have := a.isLt; omega)
    rw [this]; decide
  exact ⟨s, hz, fun n a => key n a s hz rfl rfl rfl rfl⟩

/-- A string that reaches KBSR behind one word: with no key, with a failing `read_char`. -/
theorem witness_StringAtStatus_noKey :
    let s := vec 0x3000 0xF022 |> reg .r0 0xFDFF |> word 0xFDFF 0x41 |> bridge [false] []
    ReachesStatus s (s.reg .r0) [0x41] ∧ s.iob.keys = false :: [] := by
  refine ⟨⟨by decide, by simp, fun k h => ?_, by decide⟩, rfl⟩
  match k, h with
  | 0, _ => exact ⟨rfl, by decide⟩
theorem witness_StringAtStatus_fail :
    let s := vec 0x3000 0xF024 |> reg .r0 0xFE00 |> bridge [true] [.fail .error]
    ReachesStatus s (s.reg .r0) [] ∧ s.iob.keys = true :: [] ∧ s.iob.input = .fail .error :: [] :=
  ⟨⟨by decide, by simp, fun k h => absurd h (Nat.not_lt_zero k), by decide⟩, rfl, rfl⟩
/-- A string that begins at KBSR, with a key: it goes on over KBSR + 1 and the character in KBDR. -/
theorem witness_StringAtStatus_key :
    let s := vec 0x3000 0xF022 |> reg .r0 0xFE00 |> word 0xFE01 0x42 |> bridge [true] [.byte 0x41]
    ReachesStatus s (s.reg .r0) [] ∧ s.iob.keys = true :: [] ∧ s.iob.input = .byte 0x41 :: [] ∧
      StringAt ((s.poke params.kbsr 0x8000).poke params.kbdr (BitVec.ofNat 16 (0x41 : Byte).toNat))
        (params.kbsr + 1) [0x42, 0x41] := by
  refine ⟨⟨by decide, by simp, fun k h => absurd h (Nat.not_lt_zero k), by decide⟩, rfl, rfl,
    by decide, by simp, fun k h => ?_, by decide, fun k h => ?_⟩
  · match k, h with
    | 0, _ => rfl
    | 1, _ => rfl
  · match k, h with
    | 0, _ => decide
    | 1, _ => decide
    | 2, _ => decide
/-- The bytes that run writes: PUTSP writes both bytes of the status word 0x8000. -/
theorem test_putsp_status : viewOut (step (vec 0x3000 0xF024 |> reg .r0 0xFE00 |> word 0xFE01 0x42 |>
      bridge [true] [.byte 0x41])) = some ([0x00, 0x80, 0x42, 0x41], 0x3001) := by decide +kernel

theorem witness_TrapSelects_listed : (0x20 : Byte) = params.trapvec .getc ∧
    (0x25 : Byte) = params.trapvec .halt := by decide
theorem witness_TrapSelects_unlisted : (∀ r : Routine, (0x1F : Byte) ≠ params.trapvec r) ∧
    ∀ r : Routine, (0x26 : Byte) ≠ params.trapvec r := by
  constructor <;> intro r <;> cases r <;> decide

/-- With a character there both hypotheses hold for every vector: one state for the readers (0x20, 0x23), the
writers (0x22, 0x24) and the rest. -/
theorem witness_TrapLinks :
    let s := vec 0x3000 0 |> reg .r0 0x3010 |> bridge [] [.byte 0x41]
    ∀ v : Byte, ((v = params.trapvec .getc ∨ v = params.trapvec .inEcho) → s.iob.input ≠ []) ∧
      ((v = params.trapvec .puts ∨ v = params.trapvec .putsp) →
        s.reg .r0 ≠ params.kbsr ∧ s.peek (s.reg .r0) = 0) :=
  fun _ => ⟨fun _ => by decide, fun _ => by decide⟩
/-- A vector that reads no character needs none. -/
theorem witness_TrapLinks_noInput :
    let s := vec 0x3000 0 |> reg .r0 0xFE00
    ((0x26 : Byte) = params.trapvec .getc ∨ (0x26 : Byte) = params.trapvec .inEcho → s.iob.input ≠ []) ∧
      ((0x26 : Byte) = params.trapvec .puts ∨ (0x26 : Byte) = params.trapvec .putsp →
        s.reg .r0 ≠ params.kbsr ∧ s.peek (s.reg .r0) = 0) := by decide

theorem witness_StepRuns_plain : (vec 0xFE01 0).run = .running ∧ (vec 0xFE01 0).pc ≠ params.kbsr := by decide
theorem witness_StepRuns_poll :
    let s := vec 0xFE00 0 |> bridge [false] []
    s.run = .running ∧ ∃ ir s1, fetch s = .done ir s1 := ⟨rfl, _, _, rfl⟩

theorem witness_FetchAtStatus_noKey :
    let s := vec 0xFE00 0 |> bridge [false] []
    s.run = .running ∧ s.pc = params.kbsr ∧ s.iob.keys = false :: [] := by decide
theorem witness_FetchAtStatus_key :
    let s := vec 0xFE00 0 |> bridge [true] [.byte 0x41]
    s.run = .running ∧ s.pc = params.kbsr ∧ s.iob.keys = true :: [] ∧ s.iob.input = .byte 0x41 :: [] := by decide
theorem witness_FetchAtStatus_fail :
    let s := vec 0xFE00 0 |> bridge [true] [.fail .error]
    s.run = .running ∧ s.pc = params.kbsr ∧ s.iob.keys = true :: [] ∧ s.iob.input = .fail .error :: [] := by decide

theorem witness_NoStep : State.reset.run ≠ .running ∧ ({ State.reset with run := .halted } : State).run ≠ .running ∧
    ({ State.reset with run := .faulted (.ioFault .error 0) } : State).run ≠ .running := by decide

theorem witness_StoreSeen :
    let s := vec 0xFDFE 0x3000 |> reg .r0 0xF025
    Runs s (.st .r0 0) ∧ s.pc + 1 ≠ params.kbsr := by unfold Runs; decide

theorem witness_Sequential :
    let s := vec 0xFFFF 0x1021
    s.run = .running ∧ (∃ ir s1, fetch s = .done ir s1 ∧ isSequential (decode ir) = true) ∧
      ∃ t, step s = .next t := ⟨rfl, ⟨_, _, rfl, by decide⟩, _, rfl⟩

/-- A state with some of its output flushed meets the invariant, and its step writes more. -/
theorem witness_StepKeepsMachineInvariant :
    let s := { vec 0x3000 0xF021 with iob := { Bridge.idle with output := [1, 2], flushed := 1 } }
    Safety.Inv s ∧ ∃ t, step s = .next t :=
  ⟨⟨by decide, by decide⟩, _, rfl⟩

theorem witness_FlagOtherwise_noRegister :
    ∃ t, writesNoRegister (.st .r0 0) = true ∧ exec (.st .r0 0) (vec 0x3000 0 |> flag .n) = .next t := ⟨_, rfl, rfl⟩
theorem witness_FlagOtherwise_link :
    ∃ t, keepsLinkFlag .out = true ∧ exec .out (vec 0x8000 0) = .next t := ⟨_, rfl, rfl⟩
theorem witness_FlagOtherwise_read :
    (∃ w t, memRead 0xFE00 (vec 0 0 |> bridge [false] []) = .done w t) ∧
    ∃ r t, memRead 0xFE00 (vec 0 0 |> bridge [true] [.fail .error]) = .failed r t := ⟨⟨_, _, rfl⟩, _, _, rfl⟩

theorem witness_OnlyHaltHalts : ∃ t, step (vec 0x3000 0xF025) = .next t ∧ t.run = .halted := ⟨_, rfl, rfl⟩

theorem witness_Faults_unknownOpcode :
    ∃ t, step (vec 0x3000 0xD001) = .next t ∧ t.run = .faulted (.unknownOpcode .res 0xD001 0x3000) := ⟨_, rfl, rfl⟩
theorem witness_Faults_unknownTrapVector :
    ∃ t, step (vec 0x3000 0xF026) = .next t ∧ t.run = .faulted (.unknownTrapVector 0x26 0x3000) := ⟨_, rfl, rfl⟩
theorem witness_Faults_ioFault :
    ∃ t, step (vec 0x3000 0xF020 |> bridge [] [.fail .error]) = .next t ∧
      t.run = .faulted (.ioFault .error 0x3000) := ⟨_, rfl, rfl⟩

theorem witness_InputAndOutput :
    ∃ t, step (vec 0x3000 0xF021) = .next t ∧ t.iob.output ≠ (vec 0x3000 0xF021).iob.output :=
  ⟨_, rfl, by decide⟩

/-- A load that polls: it writes the device words and is no store. -/
theorem witness_OnlyStores :
    let s := vec 0x3000 0xA001 |> word 0x3002 0xFE00 |> bridge [true] [.byte 0x41]
    (∃ t, step s = .next t) ∧ ∀ ir s1, fetch s = .done ir s1 → isStore (decode ir) = false :=
  ⟨⟨_, rfl⟩, fun ir s1 h => by
    have h0 : fetch (vec 0x3000 0xA001 |> word 0x3002 0xFE00 |> bridge [true] [.byte 0x41]) =
      .done 0xA001 (vec 0x3000 0xA001 |> word 0x3002 0xFE00 |> bridge [true] [.byte 0x41]) := rfl
    cases h0.symm.trans h
    decide⟩

/-- A form of each shape of `AsksNothing`, at an address next to KBSR. -/
theorem witness_Unasked :
    AsksNothing (.ld .r0 0) (vec 0xFE01 0) ∧ AsksNothing (.ldr .r0 .r1 0x3F) (vec 0 0 |> reg .r1 0xFE00) ∧
    AsksNothing (.ldi .r0 0) (vec 0xFDFF 0 |> word 0xFDFF 0xFE02) ∧
    AsksNothing (.sti .r0 0) (vec 0xFDFF 0 |> word 0xFDFF 0xFE00) ∧ AsksNothing .halt (vec 0 0) := by
  unfold AsksNothing; decide

/-- Two words that agree on the bits R88 uses and on no other, for a form with unused bits. -/
theorem witness_UnusedBits : (0xC1C0 : Word) &&& usedBits (decode 0xCFFF) = 0xCFFF &&& usedBits (decode 0xCFFF) ∧
    (0x8000 : Word) &&& usedBits (decode 0x8FFF) = 0x8FFF &&& usedBits (decode 0x8FFF) := by decide

theorem witness_RoundTrip : (Instr.trapUnlisted 0x1F).wellFormed = true ∧
    (Instr.trapUnlisted 0x26).wellFormed = true ∧ (Instr.br true true true 0x100).wellFormed = true := by decide

theorem witness_LoaderRoundTrip : 1 < [(0x1111 : Word), 0x2222].length ∧
    (0xFFFE : Word).toNat + 1 < 65536 := by decide
/-- Both ends of the range, and a first byte alone. -/
theorem witness_LoaderStays :
    let hi : Byte := 0x30
    let lo : Byte := 0x00
    ((0x2FFF : Word).toNat < hi.toNat * 256 + lo.toNat) ∧
    (hi.toNat * 256 + lo.toNat + [(1 : Byte), 2, 3].length / 2 ≤ (0x3001 : Word).toNat) ∧
    [(0x30 : Byte)].length < 2 := by decide
theorem witness_Boot : (∀ b ∈ [[], [(0x30 : Byte)]], b.length < 2) ∧
    ∃ b ∈ [[(0x30 : Byte)], [0x30, 0x00]], 2 ≤ b.length := by decide

end Sys2Proof.Tests
end

section
/-! Stepping an instruction whose fetch is plain, and the input routines while no character has come
(44_trap_io.md R203, R206). -/

namespace Sys2Proof.Machine

open Sys2Proof.Claims

/-- R115 where the fetch is plain: the step is the handler on the state with the PC advanced. -/
theorem step_of_runs {s : State} {i : Instr} (h : Runs s i) : step s = exec i s.advance := by
  obtain ⟨hrun, hpc, hdecode⟩ := h
  have hfetch : fetch s = .done (s.peek s.pc) s := memRead_plain s.pc s hpc
  simp only [step, hrun, hfetch, hdecode]

/-- Waiting takes back the PC increment of the fetch (R203, D20). -/
@[simp] theorem State.hold_advance (s : State) : s.advance.hold = s := by
  have hpc : s.pc + 1 - 1 = s.pc := BitVec.add_sub_cancel _ _
  simp only [State.hold, State.pc0, State.advance, State.setPc, hpc]

/-- The call of GETC and IN blocks while the environment has fixed no character. -/
theorem State.readChar_of_input_nil {s : State} (h : s.iob.input = []) : s.readChar = none := by
  obtain ⟨c, cs, hcons, -⟩ | ⟨-, hnone⟩ := s.readChar_cases
  · exact absurd (hcons.symm.trans h) (List.cons_ne_nil c cs)
  · exact hnone

theorem routineGetc_of_input_nil (before : State) {s : State} (h : s.iob.input = []) :
    routineGetc before s = .next before.hold := by
  simp only [routineGetc, State.readChar_of_input_nil h]

/-- The prompt leaves the input, so a waiting IN still waits after it. -/
theorem routineIn_of_input_nil (before : State) {s : State} (h : s.iob.input = []) :
    routineIn before s = .next before.hold := by
  have hprompt : s.promptOut.iob.input = [] := h
  simp only [routineIn, State.readChar_of_input_nil hprompt]

/-- The link write is no business of the bridge. -/
@[simp] theorem link_iob (s : State) : (link s).iob = s.iob := by
  rw [link_eq, State.setReg_iob]

theorem exec_getc_of_input_nil {s : State} (h : s.iob.input = []) : exec .getc s = .next s.hold :=
  routineGetc_of_input_nil s ((congrArg Bridge.input (link_iob s)).trans h)

theorem exec_inEcho_of_input_nil {s : State} (h : s.iob.input = []) : exec .inEcho s = .next s.hold :=
  routineIn_of_input_nil s ((congrArg Bridge.input (link_iob s)).trans h)

/-- R206: the bridge of a blocked IN holds its prompt, flushed. -/
theorem bridgeWhileInBlocks_eq (s : State) :
    bridgeWhileInBlocks s = { s.iob with
      output := s.iob.output ++ params.inPrompt
      flushed := s.iob.output.length + params.inPrompt.length } := by
  rw [bridgeWhileInBlocks, State.promptOut_iob, link_iob, List.length_append]

/-- Settles O28: with no character fixed the handler holds, which undoes the increment of the fetch. -/
theorem inputTrapsWait : Obligations.InputTrapsWait := by
  unfold Obligations.InputTrapsWait
  intro s hinput
  have hadvance : s.advance.iob.input = [] := hinput
  refine ⟨fun hgetc => ?_, fun hin => ⟨?_, bridgeWhileInBlocks_eq s⟩⟩
  · rw [step_of_runs hgetc, exec_getc_of_input_nil hadvance, State.hold_advance]
  · rw [step_of_runs hin, exec_inEcho_of_input_nil hadvance, State.hold_advance]

end Sys2Proof.Machine
end

section
/-! Proofs of the family `10_state.md`: the condition flag, the register write, what leaves registers,
PC and flag alone, and the sequential PC. -/

namespace Sys2Proof.Machine

open Sys2Proof.Config (TrapPolicy)
open Sys2Proof.Claims

/-! ### The flag of a word (R31) and the register write (R23) -/

theorem flagOf_of_ne_zero {v : Word} (h : v ≠ 0) : flagOf v = bif v.msb then .n else .p := if_neg h

/-- R31: the flag by the sign bit is the flag by the unsigned value. -/
theorem isFlagOf_flagOf (v : Word) : IsFlagOf v (flagOf v) := by
  have hmsb : v.msb = true ↔ 0x8000 ≤ v.toNat := by simp [BitVec.msb_eq_decide]
  by_cases hz : v = 0
  · subst hz
    exact ⟨iff_of_true rfl rfl, iff_of_false nofun (by decide), iff_of_false nofun (by decide)⟩
  · rw [flagOf_of_ne_zero hz]
    cases hm : v.msb with
    | true =>
      have hneg : 0x8000 ≤ v.toNat := hmsb.mp hm
      exact ⟨iff_of_false nofun hz, iff_of_true rfl hneg, iff_of_false nofun (by omega)⟩
    | false =>
      have hlow : ¬ 0x8000 ≤ v.toNat := by simpa [hm] using hmsb
      have hpos : 0 < v.toNat := Nat.pos_of_ne_zero fun h => hz (BitVec.eq_of_toNat_eq h)
      exact ⟨iff_of_false nofun hz, iff_of_false nofun hlow, iff_of_true rfl ⟨hpos, by omega⟩⟩

theorem State.setReg_writesOnly (s : State) (r : Reg) (v : Word) : WritesOnly r v s (s.setReg r v) where
  value := s.setReg_reg_same r v
  flag := isFlagOf_flagOf v
  others := s.setReg_reg_other r v
  pc := rfl
  memory := fun _ => rfl
  run := rfl
  iob := rfl

/-! ### What leaves the registers, the PC and the flag alone -/

/-- From `s` to `t` the registers, the PC and the flag are kept. -/
structure CoreFrame (s t : State) : Prop where
  regs : t.regs = s.regs
  pc : t.pc = s.pc
  cond : t.cond = s.cond

theorem CoreFrame.reg {s t : State} (f : CoreFrame s t) (r : Reg) : t.reg r = s.reg r :=
  congrArg (Regs.get · r) f.regs

/-- R241: a raised fault changes the run state only. -/
theorem raise_core {f : FaultRecord} {s t : State} (h : raise f s = .next t) : CoreFrame s t := by
  cases h; exact ⟨rfl, rfl, rfl⟩

/-- STI: its pointer read either answers, and the store follows, or fails, and the run ends. -/
theorem execSti_core {sr : Reg} {off : BitVec 9} {s t : State} (h : execSti sr off s = .next t) :
    CoreFrame s t := by
  unfold execSti at h
  cases hread : memRead (pcRelative off s) s with
  | done ea s1 =>
    rw [hread] at h
    cases h
    have hframe := (memRead_done hread).1
    exact ⟨hframe.regs, hframe.pc, hframe.cond⟩
  | failed r s1 =>
    rw [hread] at h
    cases h
    have hframe := (memRead_failed hread).1
    exact ⟨hframe.regs, hframe.pc, hframe.cond⟩

theorem exec_store_core {i : Instr} {s t : State} (hi : isStore i = true) (h : exec i s = .next t) :
    CoreFrame s t := by
  cases i with
  | st | str => cases h; exact ⟨rfl, rfl, rfl⟩
  | sti => exact execSti_core h
  | _ => cases hi

/-- A string routine that ends or fails has changed memory, the bridge and the run state only. -/
theorem writeString_core {bytes : Word → List Byte} {s t : State} (h : writeString bytes s = .next t) :
    CoreFrame s t := by
  obtain ⟨u, hu, hnext⟩ | ⟨r, u, hu, hnext⟩ | hhang := writeString_cases bytes s
  · cases hnext.symm.trans h; exact ⟨hu.regs, hu.pc, hu.cond⟩
  · cases hnext.symm.trans h; exact ⟨hu.regs, hu.pc, hu.cond⟩
  · cases hhang.symm.trans h

/-- OUT, PUTS, PUTSP and HALT keep what the link write left (R200, R202). -/
theorem exec_core_of_keepsLinkFlag {i : Instr} {s t : State} (hi : keepsLinkFlag i = true)
    (h : exec i s = .next t) : CoreFrame (link s) t := by
  cases i with
  | out | halt => cases h; exact ⟨rfl, rfl, rfl⟩
  | puts | putsp => exact writeString_core h
  | _ => cases hi

/-- R209: under either policy, a vector that selects no routine keeps what the link write left. -/
theorem routineUnlisted_core (policy : TrapPolicy) (v : Byte) {s t : State}
    (h : routineUnlisted policy v s = .next t) : CoreFrame s t := by
  cases policy with
  | fault => exact raise_core h
  | nop => cases h; exact ⟨rfl, rfl, rfl⟩

/-! ### Who leaves the flag alone (R33) -/

/-- R150: a branch is one write of the PC, which not taken is the PC itself. -/
theorem exec_br_eq (n z p : Bool) (off : BitVec 9) (s : State) :
    exec (.br n z p off) s = .next (s.setPc (bif condTest n z p s.cond then pcRelative off s else s.pc)) := by
  change execBr n z p off s = _
  unfold execBr
  cases condTest n z p s.cond <;> rfl

theorem exec_keeps_cond_and_regs {i : Instr} {s t : State} (hi : writesNoRegister i = true)
    (h : exec i s = .next t) : t.cond = s.cond ∧ ∀ r, t.reg r = s.reg r := by
  cases i with
  | br n z p off => cases (exec_br_eq n z p off s).symm.trans h; exact ⟨rfl, fun _ => rfl⟩
  | jmp => cases h; exact ⟨rfl, fun _ => rfl⟩
  | st | sti | str =>
    have hcore : CoreFrame s t := exec_store_core rfl h
    exact ⟨hcore.cond, hcore.reg⟩
  | rti | res =>
    have hcore : CoreFrame s t := raise_core h
    exact ⟨hcore.cond, hcore.reg⟩
  | _ => cases hi

theorem exec_keeps_linkFlag {i : Instr} {s t : State} (hi : keepsLinkFlag i = true)
    (h : exec i s = .next t) : IsFlagOf s.pc t.cond := by
  rw [(exec_core_of_keepsLinkFlag hi h).cond, link_eq, State.setReg_cond]
  exact isFlagOf_flagOf s.pc

/-! ### The sequential PC (R28) -/

theorem loadInto_pc {dr : Reg} {ea : Word} {s t : State} (h : loadInto dr ea s = .next t) : t.pc = s.pc := by
  obtain ⟨w, s1, hread, hnext⟩ | ⟨r, s1, hread, hnext⟩ := loadInto_cases dr ea s
  · cases hnext.symm.trans h; exact (memRead_done hread).1.pc
  · cases hnext.symm.trans h; exact (memRead_failed hread).1.pc

/-- LDI: the pointer read keeps the PC, and so do the load after it and the fault in its place. -/
theorem execLdi_pc {dr : Reg} {off : BitVec 9} {s t : State} (h : execLdi dr off s = .next t) : t.pc = s.pc := by
  unfold execLdi at h
  cases hread : memRead (pcRelative off s) s with
  | done ea s1 =>
    rw [hread] at h
    exact (loadInto_pc h).trans (memRead_done hread).1.pc
  | failed r s1 =>
    rw [hread] at h
    exact (raise_core h).pc.trans (memRead_failed hread).1.pc

theorem exec_pc_of_isSequential {i : Instr} {s t : State} (hi : isSequential i = true)
    (h : exec i s = .next t) : t.pc = s.pc := by
  cases i with
  | addReg | addImm | andReg | andImm | notReg | lea => cases h; rfl
  | ld | ldr => exact loadInto_pc h
  | ldi => exact execLdi_pc h
  | st | sti | str => exact (exec_store_core rfl h).pc
  | out | puts | putsp | halt => exact (exec_core_of_keepsLinkFlag rfl h).pc
  | trapUnlisted v => exact (routineUnlisted_core params.unknownTrapPolicy v h).pc
  | rti | res => exact (raise_core h).pc
  | _ => cases hi

/-! ### The obligations -/

/-- Settles O44: the fetch keeps the PC, the increment adds one, and a sequential handler keeps it. -/
theorem sequentialPcAdvancesByOne : Obligations.SequentialPcAdvancesByOne := by
  unfold Obligations.SequentialPcAdvancesByOne
  intro s t ir s1 _ hfetch hseq hstep
  obtain ⟨-, ⟨ir', s1', hdone, hread, hexec⟩ | ⟨r, s1', hfailed, -, -⟩⟩ := step_cases hstep
  · cases hfetch.symm.trans hdone
    calc t.pc = s1.advance.pc := exec_pc_of_isSequential hseq hexec
      _ = s1.pc + 1 := s1.advance_pc
      _ = s.pc + 1 := by rw [hread.pc]
  · cases hfetch.symm.trans hfailed

/-- Settles O48, from the frame of each kind of handler and of the memory read. -/
theorem flagOtherwiseUntouched : Obligations.FlagOtherwiseUntouched := by
  unfold Obligations.FlagOtherwiseUntouched
  refine ⟨fun _ _ _ => exec_keeps_cond_and_regs, fun _ _ _ => exec_keeps_linkFlag, State.advance_cond,
    fun _ _ _ _ hread => ?_, fun _ _ _ _ hread => ?_, fun a v s => s.poke_cond a v,
    fun bs s => s.writeChars_cond bs⟩
  · exact (memRead_done hread).1.cond
  · exact (memRead_failed hread).1.cond

/-- Settles O1. -/
theorem flagFollowsWrittenValue : Obligations.FlagFollowsWrittenValue := isFlagOf_flagOf

/-- Settles O2. -/
theorem registerWriteSetsFlag : Obligations.RegisterWriteSetsFlag := State.setReg_writesOnly

/-- Settles O46: reset memory lists nothing, and nothing is written or flushed. -/
theorem resetMeetsMachineInvariant : Obligations.ResetMeetsMachineInvariant where
  memory := Memory.wf_reset
  flushed := Nat.zero_le _

end Sys2Proof.Machine
end

section
/-! What a handler that is no store leaves: the machine's invariant, and every word of memory but the two
device words (20_memory.md R62, R64). Proved once per kind of handler, used for both. -/

namespace Sys2Proof.Machine

open Sys2Proof.Config (TrapPolicy ReadResult)
open Sys2Proof.Claims
open Sys2Proof.Safety (Inv)

/-- A word read depends on the memory array alone. -/
theorem peek_eq_of_mem_eq {t u : State} (h : t.mem = u.mem) (a : Word) : t.peek a = u.peek a :=
  congrArg (Memory.read · a.toNat) h

/-! ### The invariant over the operations of the state -/

/-- A scan of a string flushes nothing, and what it writes only adds to the output. -/
theorem ScanFrame.inv {s t : State} (f : ScanFrame s t) (hs : Inv s) : Inv t where
  memory := f.wf hs.memory
  flushed := calc t.iob.flushed = s.iob.flushed := f.flushed
    _ ≤ s.iob.output.length := hs.flushed
    _ ≤ t.iob.output.length := f.output.length_le

/-- A flush makes the count that of the bytes written. -/
theorem State.flush_inv {s : State} (hs : Inv s) : Inv s.flush where
  memory := hs.memory
  flushed := Nat.le_refl _

theorem State.poke_inv {s : State} (a v : Word) (hs : Inv s) : Inv (s.poke a v) where
  memory := Memory.wf_write s.mem a v hs.memory
  flushed := hs.flushed

/-! ### The frame of what stores nothing -/

/-- From `s` to `t` the invariant is kept and no word but the two device words has changed. -/
structure NoStoreFrame (s t : State) : Prop where
  inv : Inv s → Inv t
  peek : SameButDevice s t

theorem NoStoreFrame.of_mem_iob_eq {s t : State} (hmem : t.mem = s.mem) (hiob : t.iob = s.iob) :
    NoStoreFrame s t where
  inv := fun hs => ⟨hmem ▸ hs.memory, hiob ▸ hs.flushed⟩
  peek := fun a _ _ => peek_eq_of_mem_eq hmem a

theorem NoStoreFrame.trans {s t u : State} (f : NoStoreFrame s t) (g : NoStoreFrame t u) : NoStoreFrame s u where
  inv := fun hs => g.inv (f.inv hs)
  peek := fun a hs hd => (g.peek a hs hd).trans (f.peek a hs hd)

theorem ScanFrame.noStore {s t : State} (f : ScanFrame s t) : NoStoreFrame s t := ⟨f.inv, f.peek⟩

theorem ReadFrame.noStore {s t : State} (f : ReadFrame s t) : NoStoreFrame s t := f.toScan.noStore

theorem State.writeChars_noStore (s : State) (bs : List Byte) : NoStoreFrame s (s.writeChars bs) :=
  (s.writeChars_frame bs).noStore

theorem State.flush_noStore (s : State) : NoStoreFrame s s.flush := ⟨State.flush_inv, fun _ _ _ => rfl⟩

theorem State.promptOut_noStore (s : State) : NoStoreFrame s s.promptOut :=
  (s.writeChars_noStore _).trans (State.flush_noStore _)

theorem link_noStore (s : State) : NoStoreFrame s (link s) := .of_mem_iob_eq rfl rfl

theorem State.hold_noStore (s : State) : NoStoreFrame s s.hold := .of_mem_iob_eq rfl rfl

/-- The run state is no memory: a fault and HALT keep what the handler has left. -/
theorem State.endRun_noStore (s : State) (run : RunState) : NoStoreFrame s { s with run := run } :=
  .of_mem_iob_eq rfl rfl

theorem raise_noStore {f : FaultRecord} {s t : State} (h : raise f s = .next t) : NoStoreFrame s t := by
  cases h; exact s.endRun_noStore _

/-- A character taken from the input is no output and no store. -/
theorem State.readChar_noStore {s t : State} {c : ReadResult} (h : s.readChar = some (c, t)) : NoStoreFrame s t := by
  obtain ⟨_, _, -, hsome⟩ | ⟨-, hnone⟩ := s.readChar_cases
  · cases hsome.symm.trans h; exact ⟨fun hs => ⟨hs.memory, hs.flushed⟩, fun _ _ _ => rfl⟩
  · cases hnone.symm.trans h

/-! ### The handlers -/

theorem loadInto_noStore {dr : Reg} {ea : Word} {s t : State} (h : loadInto dr ea s = .next t) :
    NoStoreFrame s t := by
  obtain ⟨w, s1, hread, hnext⟩ | ⟨r, s1, hread, hnext⟩ := loadInto_cases dr ea s
  · cases hnext.symm.trans h
    exact (memRead_done hread).1.noStore.trans (.of_mem_iob_eq rfl rfl)
  · cases hnext.symm.trans h
    exact (memRead_failed hread).1.noStore.trans (s1.endRun_noStore _)

theorem execLdi_noStore {dr : Reg} {off : BitVec 9} {s t : State} (h : execLdi dr off s = .next t) :
    NoStoreFrame s t := by
  unfold execLdi at h
  cases hread : memRead (pcRelative off s) s with
  | done ea s1 =>
    rw [hread] at h
    exact (memRead_done hread).1.noStore.trans (loadInto_noStore h)
  | failed r s1 =>
    rw [hread] at h
    exact (memRead_failed hread).1.noStore.trans (raise_noStore h)

theorem writeString_noStore {bytes : Word → List Byte} {s t : State} (h : writeString bytes s = .next t) :
    NoStoreFrame s t := by
  obtain ⟨u, hu, hnext⟩ | ⟨r, u, hu, hnext⟩ | hhang := writeString_cases bytes s
  · cases hnext.symm.trans h; exact hu.noStore.trans u.flush_noStore
  · cases hnext.symm.trans h; exact hu.noStore.trans (u.endRun_noStore _)
  · cases hhang.symm.trans h

/-- R203: a character, a failing read, or none yet, and the step is held. -/
theorem execGetc_noStore {s t : State} (h : execGetc s = .next t) : NoStoreFrame s t := by
  unfold execGetc routineGetc at h
  split at h
  · next hread =>
    cases h
    exact ((link_noStore s).trans (State.readChar_noStore hread)).trans (.of_mem_iob_eq rfl rfl)
  · next hread => exact ((link_noStore s).trans (State.readChar_noStore hread)).trans (raise_noStore h)
  · cases h; exact s.hold_noStore

/-- R206: as for GETC, with the prompt before the read and the echo behind it. -/
theorem execIn_noStore {s t : State} (h : execIn s = .next t) : NoStoreFrame s t := by
  have hprompt : NoStoreFrame s (link s).promptOut := (link_noStore s).trans (link s).promptOut_noStore
  unfold execIn routineIn at h
  split at h
  · next c s1 hread =>
    cases h
    have hecho : NoStoreFrame s1 (s1.writeChars [c]).flush := (s1.writeChars_noStore _).trans (State.flush_noStore _)
    exact ((hprompt.trans (State.readChar_noStore hread)).trans hecho).trans (.of_mem_iob_eq rfl rfl)
  · next hread => exact (hprompt.trans (State.readChar_noStore hread)).trans (raise_noStore h)
  · cases h; exact s.hold_noStore

theorem routineOut_noStore {s t : State} (h : routineOut s = .next t) : NoStoreFrame s t := by
  cases h; exact (s.writeChars_noStore _).trans (State.flush_noStore _)

theorem routineHalt_noStore {s t : State} (h : routineHalt s = .next t) : NoStoreFrame s t := by
  cases h
  exact ((s.writeChars_noStore _).trans (State.flush_noStore _)).trans (State.endRun_noStore _ _)

theorem routineUnlisted_noStore (policy : TrapPolicy) (v : Byte) {s t : State}
    (h : routineUnlisted policy v s = .next t) : NoStoreFrame s t := by
  cases policy with
  | fault => exact raise_noStore h
  | nop => cases h; exact .of_mem_iob_eq rfl rfl

/-- R201: the generic row runs the routine of its vector. -/
theorem execTrap_noStore {v : Byte} {s t : State} (h : execTrap v s = .next t) : NoStoreFrame s t := by
  unfold execTrap routine at h
  split at h
  · exact execGetc_noStore h
  · exact (link_noStore s).trans (routineOut_noStore h)
  · exact (link_noStore s).trans (writeString_noStore h)
  · exact execIn_noStore h
  · exact (link_noStore s).trans (writeString_noStore h)
  · exact (link_noStore s).trans (routineHalt_noStore h)
  · exact (link_noStore s).trans (routineUnlisted_noStore params.unknownTrapPolicy v h)

/-- Every instruction but the three stores. -/
theorem exec_noStore {i : Instr} {s t : State} (hi : isStore i = false) (h : exec i s = .next t) :
    NoStoreFrame s t := by
  cases i with
  | br n z p off => cases (exec_br_eq n z p off s).symm.trans h; exact .of_mem_iob_eq rfl rfl
  | addReg | addImm | andReg | andImm | notReg | lea | jmp | jsr | jsrr => cases h; exact .of_mem_iob_eq rfl rfl
  | ld | ldr => exact loadInto_noStore h
  | ldi => exact execLdi_noStore h
  | rti | res => exact raise_noStore h
  | trap => exact execTrap_noStore h
  | getc => exact execGetc_noStore h
  | inEcho => exact execIn_noStore h
  | out => exact (link_noStore s).trans (routineOut_noStore h)
  | puts | putsp => exact (link_noStore s).trans (writeString_noStore h)
  | halt => exact (link_noStore s).trans (routineHalt_noStore h)
  | trapUnlisted v => exact (link_noStore s).trans (routineUnlisted_noStore params.unknownTrapPolicy v h)
  | st | sti | str => cases hi

/-! ### The stores and the step -/

theorem execSti_inv {sr : Reg} {off : BitVec 9} {s t : State} (hs : Inv s) (h : execSti sr off s = .next t) :
    Inv t := by
  unfold execSti at h
  cases hread : memRead (pcRelative off s) s with
  | done ea s1 =>
    rw [hread] at h
    cases h
    exact State.poke_inv ea (s1.reg sr) ((memRead_done hread).1.noStore.inv hs)
  | failed r s1 =>
    rw [hread] at h
    exact (raise_noStore h).inv ((memRead_failed hread).1.noStore.inv hs)

theorem exec_inv {i : Instr} {s t : State} (hs : Inv s) (h : exec i s = .next t) : Inv t := by
  cases hi : isStore i with
  | false => exact (exec_noStore hi h).inv hs
  | true =>
    cases i with
    | st | str => cases h; exact State.poke_inv _ _ hs
    | sti => exact execSti_inv hs h
    | _ => cases hi

theorem State.advance_noStore (s : State) : NoStoreFrame s s.advance := .of_mem_iob_eq rfl rfl

/-- Settles O47: the fetch is a read, and every handler keeps the invariant. -/
theorem stepKeepsMachineInvariant : Obligations.StepKeepsMachineInvariant := by
  unfold Obligations.StepKeepsMachineInvariant
  intro s t hs hstep
  obtain ⟨-, ⟨ir, s1, -, hread, hexec⟩ | ⟨r, s1, -, hread, rfl⟩⟩ := step_cases hstep
  · exact exec_inv ((hread.noStore.trans s1.advance_noStore).inv hs) hexec
  · exact (hread.noStore.trans (s1.endRun_noStore _)).inv hs

/-- Settles O52: a fetch changes the device words at the most, and so does a handler that is no store. -/
theorem onlyStoresChangeMemory : Obligations.OnlyStoresChangeMemory := by
  unfold Obligations.OnlyStoresChangeMemory
  intro s t hstep hnoStore
  obtain ⟨-, ⟨ir, s1, hfetch, hread, hexec⟩ | ⟨r, s1, -, hread, rfl⟩⟩ := step_cases hstep
  · exact ((hread.noStore.trans s1.advance_noStore).trans (exec_noStore (hnoStore ir s1 hfetch) hexec)).peek
  · exact hread.peek

end Sys2Proof.Machine
end

section
/-! The memory array and its two accesses (20_memory.md R50, R55, R56), and a store to the word that the
next fetch reads (R67). -/

namespace Sys2Proof.Machine

open Sys2Proof.Claims

/-! ### The canonical form determines the list -/

theorem Memory.wfFrom_cons {lo k : Nat} {w : Word} {m : Memory} :
    Memory.wfFrom lo ((k, w) :: m) = true ↔
      lo ≤ k ∧ k < 65536 ∧ w ≠ Memory.unlisted ∧ Memory.wfFrom (k + 1) m = true := by
  simp only [Memory.wfFrom, Bool.and_eq_true, decide_eq_true_eq, and_assoc]

theorem Memory.read_cons_same (k : Nat) (w : Word) (m : Memory) : Memory.read ((k, w) :: m) k = w := if_pos rfl

theorem Memory.read_cons_other {k a : Nat} (w : Word) (m : Memory) (h : k ≠ a) :
    Memory.read ((k, w) :: m) a = Memory.read m a := if_neg h

/-- Below the first listed address everything reads as unlisted. -/
theorem Memory.read_below {lo a : Nat} {m : Memory} (hm : Memory.wfFrom lo m = true) (ha : a < lo) :
    Memory.read m a = Memory.unlisted := by
  induction m generalizing lo with
  | nil => rfl
  | cons c m ih =>
    obtain ⟨k, w⟩ := c
    obtain ⟨hlo, -, -, hrest⟩ := Memory.wfFrom_cons.mp hm
    rw [Memory.read_cons_other w m (by omega)]
    exact ih hrest (by omega)

/-- The first listed address of one memory is no lower than the other's: below, the other would read as unlisted. -/
theorem Memory.head_le_of_read_eq {lo k : Nat} {w : Word} {m m' : Memory}
    (hm : Memory.wfFrom lo ((k, w) :: m) = true) (hm' : Memory.wfFrom lo m' = true)
    (hread : ∀ a < 65536, Memory.read ((k, w) :: m) a = Memory.read m' a) :
    ∃ k' w' rest, m' = (k', w') :: rest ∧ k' ≤ k := by
  obtain ⟨-, hk, hw, -⟩ := Memory.wfFrom_cons.mp hm
  have hlisted : Memory.read m' k ≠ Memory.unlisted := by rwa [← hread k hk, Memory.read_cons_same]
  cases m' with
  | nil => exact absurd rfl hlisted
  | cons c rest =>
    obtain ⟨k', w'⟩ := c
    refine ⟨k', w', rest, rfl, Nat.le_of_not_lt fun hlt => hlisted ?_⟩
    obtain ⟨-, hbound, hw', hrest⟩ := Memory.wfFrom_cons.mp hm'
    exact Memory.read_below (Memory.wfFrom_cons.mpr ⟨Nat.le_refl k', hbound, hw', hrest⟩) hlt

/-- R50: canonical lists that read alike are equal, by induction on one of them. -/
theorem Memory.eq_of_read_eq {lo : Nat} {m m' : Memory} (hm : Memory.wfFrom lo m = true)
    (hm' : Memory.wfFrom lo m' = true) (hread : ∀ a < 65536, Memory.read m a = Memory.read m' a) : m = m' := by
  induction m generalizing lo m' with
  | nil =>
    cases m' with
    | nil => rfl
    | cons c' rest' =>
      obtain ⟨k, w, rest, hnil, -⟩ := Memory.head_le_of_read_eq hm' hm fun a ha => (hread a ha).symm
      cases hnil
  | cons c rest ih =>
    obtain ⟨k, w⟩ := c
    obtain ⟨k', w', rest', rfl, hle⟩ := Memory.head_le_of_read_eq hm hm' hread
    obtain ⟨_, _, _, heq, hge⟩ := Memory.head_le_of_read_eq hm' hm fun a ha => (hread a ha).symm
    cases heq
    obtain rfl : k = k' := Nat.le_antisymm hge hle
    obtain ⟨-, hk, -, hrest⟩ := Memory.wfFrom_cons.mp hm
    obtain ⟨-, -, -, hrest'⟩ := Memory.wfFrom_cons.mp hm'
    have hword : w = w' := by simpa only [Memory.read_cons_same] using hread k hk
    have htail : ∀ a < 65536, Memory.read rest a = Memory.read rest' a := fun a ha => by
      rcases Nat.lt_or_ge a (k + 1) with hlow | hhigh
      · rw [Memory.read_below hrest hlow, Memory.read_below hrest' hlow]
      · have hne : k ≠ a := by omega
        simpa only [Memory.read_cons_other _ _ hne] using hread a ha
    rw [hword, ih hrest hrest' htail]

/-- Settles O15. -/
theorem canonicalMemoriesAgree : Obligations.CanonicalMemoriesAgree := by
  unfold Obligations.CanonicalMemoriesAgree
  intro m m' hm hm' hread
  refine Memory.eq_of_read_eq hm hm' fun a ha => ?_
  simpa only [BitVec.toNat_ofNat, Nat.mod_eq_of_lt ha] using hread (BitVec.ofNat 16 a)

/-! ### A store is plain, a read of the status word polls -/

theorem State.poke_storesOnly (s : State) (a v : Word) : StoresOnly a v s (s.poke a v) where
  value := s.poke_peek_same a v
  others := s.poke_peek_other a v
  regs := fun _ => rfl
  cond := rfl
  pc := rfl
  run := rfl
  iob := rfl

/-- Settles O14: `memWrite` is a plain store. -/
theorem memWriteIsPlain : Obligations.MemWriteIsPlain := State.poke_storesOnly

/-- R13: the zero extension of a byte is its unsigned value as a word. -/
theorem zext16_eq_ofNat (b : Byte) : zext16 b = BitVec.ofNat 16 b.toNat := (BitVec.ofNat_toNat 16 b).symm

/-- Settles O16, one case per answer of the bridge. -/
theorem memReadPollsAtStatus : Obligations.MemReadPollsAtStatus := by
  unfold Obligations.MemReadPollsAtStatus
  intro s
  refine ⟨fun a ha => memRead_plain a s ha, fun ks hkeys => ?_, fun ks b cs hkeys hinput => ?_,
    fun ks r cs hkeys hinput => ?_⟩
  · exact ⟨_, memRead_noKey hkeys, State.poke_storesOnly _ _ _⟩
  · refine ⟨_, _, memRead_key hkeys hinput, State.poke_storesOnly _ _ _, ?_⟩
    rw [← zext16_eq_ofNat]
    exact State.poke_storesOnly _ _ _
  · exact ⟨_, memRead_fail hkeys hinput, State.poke_storesOnly _ _ _⟩

/-- `key_available()` is no access to memory. -/
theorem State.askKey_peek (s : State) (a : Word) : s.askKey.2.peek a = s.peek a := by
  obtain ⟨k, ks, -, heq⟩ | ⟨-, heq⟩ := s.askKey_cases <;> rw [heq] <;> rfl

/-- `read_char()` of the poll is no access to memory. -/
theorem State.pollChar_peek (s : State) (a : Word) : s.pollChar.2.peek a = s.peek a := by
  obtain ⟨c, cs, -, heq⟩ | ⟨-, heq⟩ := s.pollChar_cases <;> rw [heq] <;> rfl

/-- What a read of the status word comes to, as an outcome and what it leaves in the two device words (R55):
no key, a key and its character, or a failing `read_char`. -/
def StatusOutcome (s t : State) : Prop :=
  (memRead params.kbsr s = .done 0x0000 t ∧ t.peek params.kbsr = 0x0000 ∧
    t.peek params.kbdr = s.peek params.kbdr) ∨
  (∃ b : Byte, memRead params.kbsr s = .done 0x8000 t ∧ t.peek params.kbsr = 0x8000 ∧
    t.peek params.kbdr = BitVec.ofNat 16 b.toNat) ∨
  (∃ r, memRead params.kbsr s = .failed r t ∧ t.peek params.kbsr = 0x8000 ∧
    t.peek params.kbdr = s.peek params.kbdr)

/-- By the answer of `key_available()`, and then by that of `read_char()`. -/
theorem exists_statusOutcome (s : State) : ∃ t, StatusOutcome s t := by
  have hkbdr := s.askKey_peek params.kbdr
  cases hask : s.askKey with
  | mk key s1 =>
  rw [hask] at hkbdr
  cases key with
  | false =>
    have hpoll : s.poll = (none, s1.poke params.kbsr 0x0000) := by simp only [State.poll, hask]
    refine ⟨s1.poke params.kbsr 0x0000, .inl ⟨?_, State.poke_peek_same _ _ _, ?_⟩⟩
    · simp only [memRead_kbsr, hpoll, State.poke_peek_same]
    · exact (s1.poke_peek_other _ _ _ kbsr_ne_kbdr.symm).trans hkbdr
  | true =>
    have hpeek := (s1.poke params.kbsr 0x8000).pollChar_peek
    cases hchar : (s1.poke params.kbsr 0x8000).pollChar with
    | mk answer s2 =>
    rw [hchar] at hpeek
    have hstatus : s2.peek params.kbsr = 0x8000 := (hpeek _).trans (s1.poke_peek_same _ _)
    cases answer with
    | byte b =>
      have hpoll : s.poll = (none, s2.poke params.kbdr (zext16 b)) := by simp only [State.poll, hask, hchar]
      have hkept : (s2.poke params.kbdr (zext16 b)).peek params.kbsr = 0x8000 :=
        (s2.poke_peek_other _ _ _ kbsr_ne_kbdr).trans hstatus
      refine ⟨s2.poke params.kbdr (zext16 b), .inr (.inl ⟨b, ?_, hkept, ?_⟩)⟩
      · simp only [memRead_kbsr, hpoll, hkept]
      · rw [State.poke_peek_same, zext16_eq_ofNat]
    | fail r =>
      have hpoll : s.poll = (some r, s2) := by simp only [State.poll, hask, hchar]
      refine ⟨s2, .inr (.inr ⟨r, ?_, hstatus, ?_⟩)⟩
      · simp only [memRead_kbsr, hpoll]
      · exact ((hpeek _).trans (s1.poke_peek_other _ _ _ kbsr_ne_kbdr.symm)).trans hkbdr

theorem StatusOutcome.frame {s t : State} (h : StatusOutcome s t) : ReadFrame s t := by
  obtain ⟨hread, -⟩ | ⟨b, hread, -⟩ | ⟨r, hread, -⟩ := h
  · exact (memRead_done hread).1
  · exact (memRead_done hread).1
  · exact (memRead_failed hread).1

/-- Settles O17: the outcome, with the frame that every read of memory keeps. -/
theorem statusReadHasThreeOutcomes : Obligations.StatusReadHasThreeOutcomes := by
  unfold Obligations.StatusReadHasThreeOutcomes
  intro s
  obtain ⟨t, houtcome⟩ := exists_statusOutcome s
  have hframe := houtcome.frame
  exact ⟨t, hframe.peek, hframe.reg, hframe.pc, hframe.cond, hframe.run, hframe.output, hframe.flushed,
    hframe.keys, hframe.input, houtcome⟩

/-! ### A store to the next instruction -/

theorem pcRelative_zero (s : State) : pcRelative 0 s = s.pc := by
  have hzero : sext (0 : BitVec 9) = 0 := by decide
  rw [pcRelative, hzero]
  exact BitVec.add_zero s.pc

theorem exec_st_zero (sr : Reg) (s : State) : exec (.st sr 0) s = .next (s.poke s.pc (s.reg sr)) :=
  congrArg (fun a => Host.Outcome.next (s.poke a (s.reg sr))) (pcRelative_zero s)

/-- Settles O43: the store leaves its word where the next fetch, a plain one, reads. -/
theorem storeSeenByNextFetch : Obligations.StoreSeenByNextFetch := by
  unfold Obligations.StoreSeenByNextFetch
  intro s sr hruns hnext
  have hstep : step s = .next (s.advance.poke (s.pc + 1) (s.reg sr)) := by
    rw [step_of_runs hruns, exec_st_zero, State.advance_pc, State.advance_reg]
  refine ⟨_, hstep, rfl, ?_⟩
  have hstored : Runs (s.advance.poke (s.pc + 1) (s.reg sr)) (decode (s.reg sr)) :=
    ⟨hruns.1, hnext, congrArg decode (State.poke_peek_same _ _ _)⟩
  have hpc : s.pc + 1 + 1 = s.pc + 2 := BitVec.add_assoc _ _ _
  rw [step_of_runs hstored]
  exact congrArg (fun p => exec (decode (s.reg sr)) ((s.advance.poke (s.pc + 1) (s.reg sr)).setPc p)) hpc

end Sys2Proof.Machine
end

section
/-! The string scan of PUTS and PUTSP over words that are no terminator, and what it does at the status
word (20_memory.md R57, 44_trap_io.md R205, R207). -/

namespace Sys2Proof.Machine

open Sys2Proof.Config (IOReport ReadResult)
open Sys2Proof.Claims

/-! ### One read of the scan -/

section
variable {bytes : Word → List Byte} {n : Nat} {a : Word} {s s1 : State}

theorem scan_succ_of_done {w : Word} (hread : memRead a s = .done w s1) (hw : w ≠ 0) :
    scan bytes (n + 1) a s = scan bytes n (a + 1) (s1.writeChars (bytes w)) := by
  simp only [scan, hread, if_neg hw]

theorem scan_succ_of_zero (hread : memRead a s = .done 0 s1) : scan bytes (n + 1) a s = .ended s1 := by
  simp only [scan, hread, if_pos]

theorem scan_succ_of_failed {r : IOReport} (hread : memRead a s = .failed r s1) :
    scan bytes (n + 1) a s = .failed r s1 := by
  simp only [scan, hread]

end

/-! ### A run of words that are no terminator -/

theorem State.writeChars_append (s : State) (bs cs : List Byte) :
    (s.writeChars bs).writeChars cs = s.writeChars (bs ++ cs) := by
  simp only [State.writeChars, List.append_assoc]

theorem State.writeChars_nil (s : State) : s.writeChars [] = s := by
  simp only [State.writeChars, List.append_nil]

/-- From `a` on lie the words `ws`, none zero and none at KBSR: what `StringAt` and `ReachesStatus` share. -/
def PlainWords (s : State) (a : Word) (ws : List Word) : Prop :=
  (∀ w ∈ ws, w ≠ 0) ∧
    ∀ k (h : k < ws.length), s.peek (a + BitVec.ofNat 16 k) = ws[k] ∧ a + BitVec.ofNat 16 k ≠ params.kbsr

theorem add_ofNat_zero (a : Word) : a + BitVec.ofNat 16 0 = a := BitVec.add_zero a

theorem add_ofNat_succ (a : Word) (k : Nat) : a + BitVec.ofNat 16 (k + 1) = a + 1 + BitVec.ofNat 16 k := by
  rw [Nat.add_comm, BitVec.ofNat_add, ← BitVec.add_assoc]
  rfl

theorem PlainWords.head {s : State} {a w : Word} {ws : List Word} (h : PlainWords s a (w :: ws)) :
    memRead a s = .done w s ∧ w ≠ 0 := by
  obtain ⟨hnonzero, hwords⟩ := h
  obtain ⟨hpeek, hplain⟩ := hwords 0 (Nat.zero_lt_succ _)
  rw [add_ofNat_zero] at hpeek hplain
  exact ⟨(memRead_plain a s hplain).trans (congrArg (Access.done · s) hpeek), hnonzero w List.mem_cons_self⟩

theorem PlainWords.tail {s : State} {a w : Word} {ws : List Word} (h : PlainWords s a (w :: ws)) :
    PlainWords s (a + 1) ws := by
  obtain ⟨hnonzero, hwords⟩ := h
  refine ⟨fun x hx => hnonzero x (List.mem_cons_of_mem w hx), fun k hk => ?_⟩
  rw [← add_ofNat_succ]
  exact hwords (k + 1) (Nat.succ_lt_succ hk)

/-- The scan writes the characters of such words and goes on behind them. -/
theorem scan_plainWords (bytes : Word → List Byte) (n : Nat) {s : State} {a : Word} {ws : List Word}
    (h : PlainWords s a ws) :
    scan bytes (n + ws.length) a s =
      scan bytes n (a + BitVec.ofNat 16 ws.length) (s.writeChars (ws.flatMap bytes)) := by
  induction ws generalizing a s with
  | nil => rw [List.length_nil, add_ofNat_zero, List.flatMap_nil, State.writeChars_nil, Nat.add_zero]
  | cons w ws ih =>
    obtain ⟨hread, hw⟩ := h.head
    have htail : PlainWords (s.writeChars (bytes w)) (a + 1) ws := h.tail
    calc scan bytes (n + (w :: ws).length) a s
        = scan bytes (n + ws.length) (a + 1) (s.writeChars (bytes w)) := scan_succ_of_done hread hw
      _ = scan bytes n (a + 1 + BitVec.ofNat 16 ws.length)
            ((s.writeChars (bytes w)).writeChars (ws.flatMap bytes)) := ih htail
      _ = scan bytes n (a + BitVec.ofNat 16 (w :: ws).length) (s.writeChars ((w :: ws).flatMap bytes)) := by
        rw [State.writeChars_append, List.length_cons, add_ofNat_succ, List.flatMap_cons]

/-- A string off KBSR is written whole, where the fuel reaches its terminator. -/
theorem scan_stringAt (bytes : Word → List Byte) {n : Nat} {s : State} {a : Word} {ws : List Word}
    (h : StringAt s a ws) (hn : ws.length < n) :
    scan bytes n a s = .ended (s.writeChars (ws.flatMap bytes)) := by
  obtain ⟨-, hnonzero, hwords, hzero, hplain⟩ := h
  have hprefix : PlainWords s a ws := ⟨hnonzero, fun k hk => ⟨hwords k hk, hplain k (Nat.le_of_lt hk)⟩⟩
  have hread : memRead (a + BitVec.ofNat 16 ws.length) (s.writeChars (ws.flatMap bytes)) =
      .done 0 (s.writeChars (ws.flatMap bytes)) :=
    (memRead_plain _ _ (hplain _ (Nat.le_refl _))).trans (congrArg (Access.done · _) hzero)
  obtain ⟨m, rfl⟩ : ∃ m, n = m + 1 + ws.length := ⟨n - ws.length - 1, by omega⟩
  rw [scan_plainWords bytes (m + 1) hprefix, scan_succ_of_zero hread]

/-- A string that meets KBSR is written up to there. -/
theorem scan_reachesStatus (bytes : Word → List Byte) (n : Nat) {s : State} {a : Word} {ws : List Word}
    (h : ReachesStatus s a ws) :
    scan bytes (n + ws.length) a s = scan bytes n params.kbsr (s.writeChars (ws.flatMap bytes)) := by
  obtain ⟨-, hnonzero, hwords, hstatus⟩ := h
  rw [scan_plainWords bytes n ⟨hnonzero, hwords⟩, hstatus]

/-! ### PUTS and PUTSP as one routine -/

theorem extractLow_eq (w : Word) : w.extractLsb' 0 8 = BitVec.ofNat 8 w.toNat := rfl

theorem extractHigh_eq (w : Word) : w.extractLsb' 8 8 = BitVec.ofNat 8 (w.toNat / 256) :=
  congrArg (BitVec.ofNat 8) (Nat.shiftRight_eq_div_pow w.toNat 8)

theorem extractHigh_eq_zero_iff (w : Word) : w.extractLsb' 8 8 = 0#8 ↔ w.toNat < 256 := by
  have hw := w.isLt
  rw [extractHigh_eq, ← BitVec.toNat_inj, BitVec.toNat_ofNat, BitVec.toNat_ofNat]
  omega

theorem putsBytes_eq (w : Word) : putsBytes w = stringBytes .puts w := by
  have hputs : ¬ (Instr.puts = .putsp ∧ 256 ≤ w.toNat) := fun h => nomatch h.1
  rw [putsBytes, stringBytes, if_neg hputs, extractLow_eq]

theorem putspBytes_eq (w : Word) : putspBytes w = stringBytes .putsp w := by
  unfold putspBytes stringBytes
  rcases Nat.lt_or_ge w.toNat 256 with hlow | hhigh
  · have hone : ¬ (Instr.putsp = .putsp ∧ 256 ≤ w.toNat) := fun h => Nat.not_le_of_lt hlow h.2
    rw [if_pos ((extractHigh_eq_zero_iff w).mpr hlow), if_neg hone, extractLow_eq]
  · have hzero : ¬ w.extractLsb' 8 8 = 0#8 := fun h => Nat.not_lt_of_ge hhigh ((extractHigh_eq_zero_iff w).mp h)
    rw [if_neg hzero, if_pos ⟨rfl, hhigh⟩, extractLow_eq, extractHigh_eq]

theorem stringBytes_status {i : Instr} (hi : i = .puts ∨ i = .putsp) :
    stringBytes i 0x8000 = if i = .putsp then [0x00, 0x80] else [0x00] := by
  rcases hi with rfl | rfl <;> decide

/-- Both routines are the scan on the state the link write left; they differ in the characters of a word. -/
theorem exec_string_eq {i : Instr} (hi : i = .puts ∨ i = .putsp) (s : State) :
    exec i s = writeString (stringBytes i) (link s) := by
  rcases hi with rfl | rfl
  · exact congrArg (writeString · (link s)) (funext putsBytes_eq)
  · exact congrArg (writeString · (link s)) (funext putspBytes_eq)

/-- Neither routine writes a register, so both leave what the link write left. -/
theorem exec_string_linkWritten {i : Instr} (hi : i = .puts ∨ i = .putsp) {s t : State}
    (h : exec i s = .next t) : LinkWritten s t := by
  have hkeeps : keepsLinkFlag i = true := by rcases hi with rfl | rfl <;> rfl
  have hcore : CoreFrame (link s) t := exec_core_of_keepsLinkFlag hkeeps h
  have hlink : WritesOnly .r7 s.pc s (link s) := s.setReg_writesOnly .r7 s.pc
  exact ⟨(hcore.reg _).trans hlink.value, exec_keeps_linkFlag hkeeps h,
    fun q hq => (hcore.reg q).trans (hlink.others q hq), hcore.pc.trans hlink.pc⟩

theorem link_r0 (s : State) : (link s).reg .r0 = s.reg .r0 := s.setReg_reg_other .r7 s.pc .r0 (by decide)

/-- Two rounds of memory are the least that a scan may read. -/
theorem two_rounds_le_scanFuel (s : State) : 131072 ≤ scanFuel s := by
  unfold scanFuel
  omega

/-! ### A string that reaches the status word -/

/-- The state in which such a string polls: the link write made, the characters before KBSR written. -/
def atStatus (i : Instr) (ws : List Word) (s : State) : State :=
  (link s).writeChars (ws.flatMap (stringBytes i))

section
variable {i : Instr} {s t : State} {ws : List Word}

/-- The fuel is enough to reach the status word and leaves a round of memory behind it. -/
theorem scan_eq_scan_atStatus (h : ReachesStatus s (s.reg .r0) ws) :
    ∃ n, 65536 ≤ n ∧ scan (stringBytes i) (scanFuel (link s)) ((link s).reg .r0) (link s) =
      scan (stringBytes i) (n + 1) params.kbsr (atStatus i ws s) := by
  have hlength : ws.length < 65536 := h.1
  have hfuel := two_rounds_le_scanFuel (link s)
  have hreaches : ReachesStatus (link s) (s.reg .r0) ws := h
  refine ⟨scanFuel (link s) - ws.length - 1, by omega, ?_⟩
  rw [link_r0, atStatus, ← scan_reachesStatus _ _ hreaches]
  congr 1
  omega

theorem exec_string_of_ended (hi : i = .puts ∨ i = .putsp)
    (h : scan (stringBytes i) (scanFuel (link s)) ((link s).reg .r0) (link s) = .ended t) :
    exec i s = .next t.flush := by
  simp only [exec_string_eq hi, writeString, h]

theorem exec_string_of_failed (hi : i = .puts ∨ i = .putsp) {r : IOReport}
    (h : scan (stringBytes i) (scanFuel (link s)) ((link s).reg .r0) (link s) = .failed r t) :
    exec i s = .next { t with run := .faulted (.ioFault r t.pc0) } := by
  simp only [exec_string_eq hi, writeString, h]
  rfl

/-- With no key the status word 0x0000 ends the string. -/
theorem exec_string_noKey (hi : i = .puts ∨ i = .putsp) (h : ReachesStatus s (s.reg .r0) ws) {ks : List Bool}
    (hkeys : s.iob.keys = false :: ks) :
    ∃ t, exec i s = .next t ∧ t.run = s.run ∧ t.mem = (s.poke params.kbsr 0x0000).mem ∧
      t.iob = { s.iob with
        keys := ks
        output := s.iob.output ++ ws.flatMap (stringBytes i)
        flushed := (s.iob.output ++ ws.flatMap (stringBytes i)).length } := by
  obtain ⟨n, -, hscan⟩ := scan_eq_scan_atStatus (i := i) h
  have hread := memRead_noKey (s := atStatus i ws s) hkeys
  exact ⟨_, exec_string_of_ended hi (hscan.trans (scan_succ_of_zero hread)), rfl, rfl, rfl⟩

/-- With a key the status word 0x8000 is written as a word of the string, and the string behind KBSR follows. -/
theorem exec_string_key (hi : i = .puts ∨ i = .putsp) (h : ReachesStatus s (s.reg .r0) ws) {ks : List Bool}
    {b : Byte} {cs : List ReadResult} {us : List Word} (hkeys : s.iob.keys = true :: ks)
    (hinput : s.iob.input = .byte b :: cs)
    (hrest : StringAt ((s.poke params.kbsr 0x8000).poke params.kbdr (zext16 b)) (params.kbsr + 1) us) :
    ∃ t, exec i s = .next t ∧ t.run = s.run ∧
      t.mem = ((s.poke params.kbsr 0x8000).poke params.kbdr (zext16 b)).mem ∧
      t.iob.output = s.iob.output ++ ws.flatMap (stringBytes i) ++ stringBytes i 0x8000 ++
        us.flatMap (stringBytes i) ∧
      t.iob.flushed = t.iob.output.length ∧ t.iob.keys = ks ∧ t.iob.input = cs := by
  obtain ⟨n, hn, hscan⟩ := scan_eq_scan_atStatus (i := i) h
  have hread := memRead_key (s := atStatus i ws s) hkeys hinput
  have hlength : us.length < n := Nat.lt_of_lt_of_le hrest.1 hn
  have hbehind := (scan_succ_of_done (bytes := stringBytes i) hread (by decide)).trans
    (scan_stringAt (stringBytes i) hrest hlength)
  exact ⟨_, exec_string_of_ended hi (hscan.trans hbehind), rfl, rfl, rfl, rfl, rfl, rfl⟩

/-- With a key whose character fails to come the run ends at the poll. -/
theorem exec_string_fail (hi : i = .puts ∨ i = .putsp) (h : ReachesStatus s (s.reg .r0) ws) {ks : List Bool}
    {r : IOReport} {cs : List ReadResult} (hkeys : s.iob.keys = true :: ks)
    (hinput : s.iob.input = .fail r :: cs) :
    ∃ t, exec i s = .next t ∧ t.run = .faulted (.ioFault r (s.pc - 1)) ∧
      t.mem = (s.poke params.kbsr 0x8000).mem ∧
      t.iob = { s.iob with
        keys := ks, input := cs, output := s.iob.output ++ ws.flatMap (stringBytes i) } := by
  obtain ⟨n, -, hscan⟩ := scan_eq_scan_atStatus (i := i) h
  have hread := memRead_fail (s := atStatus i ws s) hkeys hinput
  exact ⟨_, exec_string_of_failed hi (hscan.trans (scan_succ_of_failed hread)), rfl, rfl, rfl⟩

end

/-- Settles O34: the string is written up to KBSR, and each answer of the poll there ends or continues it. -/
theorem stringAtStatusPolls : Obligations.StringAtStatusPolls := by
  unfold Obligations.StringAtStatusPolls
  intro s i ws hi hreaches
  refine ⟨fun ks hkeys => ?_, fun ks b cs us hkeys hinput hrest => ?_, fun ks r cs hkeys hinput => ?_⟩
  · obtain ⟨t, hexec, hrun, hmem, hiob⟩ := exec_string_noKey hi hreaches hkeys
    have hpeek := peek_eq_of_mem_eq hmem
    exact ⟨t, hexec, exec_string_linkWritten hi hexec, hrun, (hpeek _).trans (s.poke_peek_same _ _),
      fun a ha => (hpeek a).trans (s.poke_peek_other _ _ a ha), hiob⟩
  · rw [← zext16_eq_ofNat] at hrest ⊢
    obtain ⟨t, hexec, hrun, hmem, hout, hflushed, hkeys', hinput'⟩ := exec_string_key hi hreaches hkeys hinput hrest
    have hpeek := peek_eq_of_mem_eq hmem
    have hkbsr : t.peek params.kbsr = 0x8000 :=
      ((hpeek _).trans (State.poke_peek_other _ _ _ _ kbsr_ne_kbdr)).trans (s.poke_peek_same _ _)
    have hother : SameButDevice s t := fun a hs hd =>
      ((hpeek a).trans (State.poke_peek_other _ _ _ a hd)).trans (s.poke_peek_other _ _ a hs)
    rw [stringBytes_status hi] at hout
    exact ⟨t, hexec, exec_string_linkWritten hi hexec, hrun, hkbsr, (hpeek _).trans (State.poke_peek_same _ _ _),
      hother, hout, hflushed, hkeys', hinput'⟩
  · obtain ⟨t, hexec, hrun, hmem, hiob⟩ := exec_string_fail hi hreaches hkeys hinput
    have hpeek := peek_eq_of_mem_eq hmem
    exact ⟨t, hexec, exec_string_linkWritten hi hexec, hrun, (hpeek _).trans (s.poke_peek_same _ _),
      fun a ha => (hpeek a).trans (s.poke_peek_other _ _ a ha), hiob⟩

end Sys2Proof.Machine
end

section
/-! Sign extension (30_encoding.md R86): the rule's formula is the library's `BitVec.signExtend`. -/

namespace Sys2Proof.Machine

theorem sext_eq_signExtend {n : Nat} (f : BitVec n) : sext f = f.signExtend 16 := by
  have hmsb : f.msb = f.getLsbD (n - 1) := BitVec.msb_eq_getLsbD_last f
  apply BitVec.eq_of_getLsbD_eq
  intro i hi
  rw [BitVec.getLsbD_signExtend, hmsb]
  unfold sext
  by_cases hin : i < n
  · cases f.getLsbD (n - 1) <;> simp [hi, hin]
  · have hbeyond : f.getLsbD i = false := BitVec.getLsbD_of_ge f i (Nat.le_of_not_lt hin)
    have hset : (0xFFFF#16)[i - n] = true := BitVec.getElem_allOnes (v := 16) (i - n) (by omega)
    cases f.getLsbD (n - 1) <;> simp [hi, hin, hbeyond, hset]

/-- Settles O3: widening by the sign bit keeps the signed value. -/
theorem signExtensionKeepsValue : Obligations.SignExtensionKeepsValue := by
  unfold Obligations.SignExtensionKeepsValue
  intro n f _ hle
  rw [sext_eq_signExtend, BitVec.toInt_signExtend_of_le hle]

end Sys2Proof.Machine
end

section
/-! The decoder (30_encoding.md R81 to R93): what it answers for each opcode slot and form bit. -/

namespace Sys2Proof

open Sys2Proof.Config (Slot)
open Sys2Proof.Machine (params slotOf)
open Sys2Proof.Laws (slot)

section
variable {ir : Word}

theorem decode_br (h : slotOf (opcodeField ir) = .br) :
    decode ir = .br (ir.getLsbD 11) (ir.getLsbD 10) (ir.getLsbD 9) (fieldOffset9 ir) := by
  simp only [decode, decodeFields, h, refine]

theorem decode_addReg (h : slotOf (opcodeField ir) = .add) (hform : ir.getLsbD 5 = false) :
    decode ir = .addReg (regOfField (fieldRA ir)) (regOfField (fieldRB ir)) (regOfField (fieldRC ir)) := by
  simp only [decode, decodeFields, h, hform, cond_false, refine]

theorem decode_addImm (h : slotOf (opcodeField ir) = .add) (hform : ir.getLsbD 5 = true) :
    decode ir = .addImm (regOfField (fieldRA ir)) (regOfField (fieldRB ir)) (fieldImm5 ir) := by
  simp only [decode, decodeFields, h, hform, cond_true, refine]

theorem decode_ld (h : slotOf (opcodeField ir) = .ld) :
    decode ir = .ld (regOfField (fieldRA ir)) (fieldOffset9 ir) := by
  simp only [decode, decodeFields, h, refine]

theorem decode_st (h : slotOf (opcodeField ir) = .st) :
    decode ir = .st (regOfField (fieldRA ir)) (fieldOffset9 ir) := by
  simp only [decode, decodeFields, h, refine]

theorem decode_jsr (h : slotOf (opcodeField ir) = .jsr) (hform : ir.getLsbD 11 = true) :
    decode ir = .jsr (fieldOffset11 ir) := by
  simp only [decode, decodeFields, h, hform, cond_true, refine]

theorem decode_jsrr (h : slotOf (opcodeField ir) = .jsr) (hform : ir.getLsbD 11 = false) :
    decode ir = .jsrr (regOfField (fieldRB ir)) := by
  simp only [decode, decodeFields, h, hform, cond_false, refine]

theorem decode_andReg (h : slotOf (opcodeField ir) = .and) (hform : ir.getLsbD 5 = false) :
    decode ir = .andReg (regOfField (fieldRA ir)) (regOfField (fieldRB ir)) (regOfField (fieldRC ir)) := by
  simp only [decode, decodeFields, h, hform, cond_false, refine]

theorem decode_andImm (h : slotOf (opcodeField ir) = .and) (hform : ir.getLsbD 5 = true) :
    decode ir = .andImm (regOfField (fieldRA ir)) (regOfField (fieldRB ir)) (fieldImm5 ir) := by
  simp only [decode, decodeFields, h, hform, cond_true, refine]

theorem decode_ldr (h : slotOf (opcodeField ir) = .ldr) :
    decode ir = .ldr (regOfField (fieldRA ir)) (regOfField (fieldRB ir)) (fieldOffset6 ir) := by
  simp only [decode, decodeFields, h, refine]

theorem decode_str (h : slotOf (opcodeField ir) = .str) :
    decode ir = .str (regOfField (fieldRA ir)) (regOfField (fieldRB ir)) (fieldOffset6 ir) := by
  simp only [decode, decodeFields, h, refine]

theorem decode_rti (h : slotOf (opcodeField ir) = .rti) :
    decode ir = .rti (fieldUnused12 ir) := by
  simp only [decode, decodeFields, h, refine]

theorem decode_not (h : slotOf (opcodeField ir) = .not) :
    decode ir = .notReg (regOfField (fieldRA ir)) (regOfField (fieldRB ir)) := by
  simp only [decode, decodeFields, h, refine]

theorem decode_ldi (h : slotOf (opcodeField ir) = .ldi) :
    decode ir = .ldi (regOfField (fieldRA ir)) (fieldOffset9 ir) := by
  simp only [decode, decodeFields, h, refine]

theorem decode_sti (h : slotOf (opcodeField ir) = .sti) :
    decode ir = .sti (regOfField (fieldRA ir)) (fieldOffset9 ir) := by
  simp only [decode, decodeFields, h, refine]

theorem decode_jmp (h : slotOf (opcodeField ir) = .jmp) :
    decode ir = .jmp (regOfField (fieldRB ir)) := by
  simp only [decode, decodeFields, h, refine]

theorem decode_res (h : slotOf (opcodeField ir) = .res) :
    decode ir = .res (fieldUnused12 ir) := by
  simp only [decode, decodeFields, h, refine]

theorem decode_lea (h : slotOf (opcodeField ir) = .lea) :
    decode ir = .lea (regOfField (fieldRA ir)) (fieldOffset9 ir) := by
  simp only [decode, decodeFields, h, refine]

theorem decode_trap (h : slotOf (opcodeField ir) = .trap) :
    decode ir = refineTrap (fieldVector ir) := by
  simp only [decode, decodeFields, h, refine]

end

theorem slot_refineTrap (v : Byte) : slot (refineTrap v) = .trap := by
  unfold refineTrap
  split <;> rfl

/-- R114: the decoded instruction belongs to the slot that the opcode field selects. -/
theorem slot_decode (ir : Word) : slot (decode ir) = slotOf (opcodeField ir) := by
  unfold decode decodeFields
  cases slotOf (opcodeField ir) with
  | add => cases ir.getLsbD 5 <;> rfl
  | and => cases ir.getLsbD 5 <;> rfl
  | jsr => cases ir.getLsbD 11 <;> rfl
  | trap => exact slot_refineTrap _
  | _ => rfl

theorem slotOf_eq_iff (op : BitVec 4) (t : Slot) : slotOf op = t ↔ op = params.opmap t :=
  ⟨fun h => h ▸ (opmap_slotOf op).symm, fun h => h ▸ slotOf_opmap t⟩

/-! ### The words that abort (R90) -/

theorem aborts_iff_slot (i : Instr) : (∃ u, i = .rti u ∨ i = .res u) ↔ slot i = .rti ∨ slot i = .res := by
  cases i <;> simp [slot]

theorem opcodeField_toNat (ir : Word) : (opcodeField ir).toNat = ir.toNat / 4096 := by
  have hir := ir.isLt
  rw [opcodeField, BitVec.extractLsb'_toNat, Nat.shiftRight_eq_div_pow]
  omega

/-- The opcode value of a slot as a number selects the slot. -/
theorem slotOf_opcodeField_eq_iff (ir : Word) (t : Slot) :
    slotOf (opcodeField ir) = t ↔ ir.toNat / 4096 = (params.opmap t).toNat := by
  rw [slotOf_eq_iff, ← BitVec.toNat_inj, opcodeField_toNat]

/-- Settles O56: the decoder's slot is that of the opcode value, and two slots abort. -/
theorem abortingWordsAreTwoOpcodes : Obligations.AbortingWordsAreTwoOpcodes := by
  unfold Obligations.AbortingWordsAreTwoOpcodes
  intro ir
  rw [aborts_iff_slot, slot_decode, slotOf_opcodeField_eq_iff, slotOf_opcodeField_eq_iff]

/-- Settles O57: each word is a closed term that the decoder evaluates. -/
theorem specExampleWordsDecode : Obligations.SpecExampleWordsDecode := by
  unfold Obligations.SpecExampleWordsDecode
  decide

end Sys2Proof
end

section
/-! The fields of an encoded word: what the decoder reads back from each format of R88. -/

namespace Sys2Proof

open Sys2Proof.Config (Slot)
open Sys2Proof.Machine (slotOf routineOf)
open Sys2Proof.Laws (opcodeField_wordOf)

@[simp] theorem slotOf_opcodeField_wordOf (t : Slot) (x : BitVec 12) : slotOf (opcodeField (wordOf t x)) = t :=
  (slotOf_eq_iff _ t).2 (opcodeField_wordOf t x)

/-! ### Below the opcode a field is a field of the body -/

section
variable (t : Slot) (x : BitVec 12)

theorem extractLsb'_wordOf {start len : Nat} (h : start + len ≤ 12) :
    (wordOf t x).extractLsb' start len = x.extractLsb' start len :=
  BitVec.extractLsb'_append_eq_of_add_le h

@[simp] theorem fieldRA_wordOf : fieldRA (wordOf t x) = x.extractLsb' 9 3 := extractLsb'_wordOf t x (by decide)
@[simp] theorem fieldRB_wordOf : fieldRB (wordOf t x) = x.extractLsb' 6 3 := extractLsb'_wordOf t x (by decide)
@[simp] theorem fieldRC_wordOf : fieldRC (wordOf t x) = x.extractLsb' 0 3 := extractLsb'_wordOf t x (by decide)
@[simp] theorem fieldImm5_wordOf : fieldImm5 (wordOf t x) = x.extractLsb' 0 5 := extractLsb'_wordOf t x (by decide)
@[simp] theorem fieldOffset6_wordOf : fieldOffset6 (wordOf t x) = x.extractLsb' 0 6 :=
  extractLsb'_wordOf t x (by decide)
@[simp] theorem fieldOffset9_wordOf : fieldOffset9 (wordOf t x) = x.extractLsb' 0 9 :=
  extractLsb'_wordOf t x (by decide)
@[simp] theorem fieldOffset11_wordOf : fieldOffset11 (wordOf t x) = x.extractLsb' 0 11 :=
  extractLsb'_wordOf t x (by decide)
@[simp] theorem fieldVector_wordOf : fieldVector (wordOf t x) = x.extractLsb' 0 8 :=
  extractLsb'_wordOf t x (by decide)
@[simp] theorem fieldUnused12_wordOf : fieldUnused12 (wordOf t x) = x := BitVec.extractLsb'_append_eq_right

theorem getLsbD_wordOf {i : Nat} (h : i < 12) : (wordOf t x).getLsbD i = x.getLsbD i := by
  rw [wordOf, BitVec.getLsbD_append, if_pos h]

end

theorem formBit_wordOf {t : Slot} {x : BitVec 12} {i : Nat} {b : Bool} (hi : i < 12) (h : x.getLsbD i = b) :
    (wordOf t x).getLsbD i = b := (getLsbD_wordOf t x hi).trans h

/-! ### The fields of each format's body -/

section
variable (r base sr1 sr2 : Reg)

@[simp] theorem bodyOPR_ra : (bodyOPR r sr1 sr2).extractLsb' 9 3 = fieldOfReg r :=
  (BitVec.extractLsb'_append_eq_of_le (by decide)).trans <|
    (BitVec.extractLsb'_append_eq_of_le (by decide)).trans BitVec.extractLsb'_append_eq_left
@[simp] theorem bodyOPR_rb : (bodyOPR r sr1 sr2).extractLsb' 6 3 = fieldOfReg sr1 :=
  (BitVec.extractLsb'_append_eq_of_le (by decide)).trans <|
    (BitVec.extractLsb'_append_eq_of_le (by decide)).trans BitVec.extractLsb'_append_eq_right
@[simp] theorem bodyOPR_rc : (bodyOPR r sr1 sr2).extractLsb' 0 3 = fieldOfReg sr2 :=
  BitVec.extractLsb'_append_eq_right
theorem bodyOPR_form : (bodyOPR r sr1 sr2).getLsbD 5 = false := by
  simp only [bodyOPR, BitVec.getLsbD_append]; rfl

@[simp] theorem bodyOPI_ra (imm : BitVec 5) : (bodyOPI r sr1 imm).extractLsb' 9 3 = fieldOfReg r :=
  (BitVec.extractLsb'_append_eq_of_le (by decide)).trans <|
    (BitVec.extractLsb'_append_eq_of_le (by decide)).trans BitVec.extractLsb'_append_eq_left
@[simp] theorem bodyOPI_rb (imm : BitVec 5) : (bodyOPI r sr1 imm).extractLsb' 6 3 = fieldOfReg sr1 :=
  (BitVec.extractLsb'_append_eq_of_le (by decide)).trans <|
    (BitVec.extractLsb'_append_eq_of_le (by decide)).trans BitVec.extractLsb'_append_eq_right
@[simp] theorem bodyOPI_imm (imm : BitVec 5) : (bodyOPI r sr1 imm).extractLsb' 0 5 = imm :=
  BitVec.extractLsb'_append_eq_right
theorem bodyOPI_form (imm : BitVec 5) : (bodyOPI r sr1 imm).getLsbD 5 = true := by
  simp only [bodyOPI, BitVec.getLsbD_append]; rfl

@[simp] theorem bodyPC9_ra (off : BitVec 9) : (bodyPC9 r off).extractLsb' 9 3 = fieldOfReg r :=
  BitVec.extractLsb'_append_eq_left
@[simp] theorem bodyPC9_offset (off : BitVec 9) : (bodyPC9 r off).extractLsb' 0 9 = off :=
  BitVec.extractLsb'_append_eq_right

@[simp] theorem bodyBO6_ra (off : BitVec 6) : (bodyBO6 r base off).extractLsb' 9 3 = fieldOfReg r :=
  (BitVec.extractLsb'_append_eq_of_le (by decide)).trans BitVec.extractLsb'_append_eq_left
@[simp] theorem bodyBO6_rb (off : BitVec 6) : (bodyBO6 r base off).extractLsb' 6 3 = fieldOfReg base :=
  (BitVec.extractLsb'_append_eq_of_le (by decide)).trans BitVec.extractLsb'_append_eq_right
@[simp] theorem bodyBO6_offset (off : BitVec 6) : (bodyBO6 r base off).extractLsb' 0 6 = off :=
  BitVec.extractLsb'_append_eq_right

/-- NOT's format is BO6's with the offset 0. -/
theorem bodyNOT_eq : bodyNOT r sr1 = bodyBO6 r sr1 0 := rfl

/-- The base formats are BO6's with the register R0 (field 0) and the offset 0. -/
theorem bodyBase_eq : bodyBase base = bodyBO6 .r0 base 0 := rfl

theorem bodyBase_form : (bodyBase base).getLsbD 11 = false := by
  simp only [bodyBase, BitVec.getLsbD_append]; rfl

@[simp] theorem bodyTRAP_vector (v : Byte) : (bodyTRAP v).extractLsb' 0 8 = v :=
  BitVec.extractLsb'_append_eq_right

@[simp] theorem bodyJSR_offset (off : BitVec 11) : (1#1 ++ off : BitVec 12).extractLsb' 0 11 = off :=
  BitVec.extractLsb'_append_eq_right
theorem bodyJSR_form (off : BitVec 11) : (1#1 ++ off : BitVec 12).getLsbD 11 = true := by
  simp only [BitVec.getLsbD_append]; rfl

end

section
variable (n z p : Bool) (off : BitVec 9)

@[simp] theorem bodyBR_offset : (condField n z p ++ off : BitVec 12).extractLsb' 0 9 = off :=
  BitVec.extractLsb'_append_eq_right

/-- R87: bit 11 is n, bit 10 z, bit 9 p. -/
theorem bodyBR_cond : (condField n z p ++ off : BitVec 12).getLsbD 11 = n ∧
    (condField n z p ++ off : BitVec 12).getLsbD 10 = z ∧ (condField n z p ++ off : BitVec 12).getLsbD 9 = p := by
  simp only [condField, BitVec.getLsbD_append]
  simp

end

/-! ### The round trip (R93) -/

/-- R209: a vector that selects no routine is the unlisted row's. -/
theorem refineTrap_unlisted {v : Byte} (h : routineOf v = none) : refineTrap v = .trapUnlisted v := by
  simp only [refineTrap, h]

theorem decode_wordOf_trap (v : Byte) : decode (wordOf .trap (bodyTRAP v)) = refineTrap v := by
  rw [decode_trap (slotOf_opcodeField_wordOf _ _), fieldVector_wordOf, bodyTRAP_vector]

theorem decode_encode_br (n z p : Bool) (off : BitVec 9) : decode (encode (.br n z p off)) = .br n z p off := by
  obtain ⟨hn, hz, hp⟩ := bodyBR_cond n z p off
  rw [encode, decode_br (slotOf_opcodeField_wordOf _ _), getLsbD_wordOf _ _ (by decide),
    getLsbD_wordOf _ _ (by decide), getLsbD_wordOf _ _ (by decide), hn, hz, hp, fieldOffset9_wordOf, bodyBR_offset]

theorem decode_encode_of_wellFormed (i : Instr) (hwf : i.wellFormed = true) : decode (encode i) = i := by
  cases i with
  | br n z p off => exact decode_encode_br n z p off
  | addReg dr sr1 sr2 =>
    rw [encode, decode_addReg (by simp) (formBit_wordOf (by decide) (bodyOPR_form dr sr1 sr2))]
    simp [regOfField_fieldOfReg]
  | addImm dr sr1 imm =>
    rw [encode, decode_addImm (by simp) (formBit_wordOf (by decide) (bodyOPI_form dr sr1 imm))]
    simp [regOfField_fieldOfReg]
  | ld dr off => simp [encode, decode_ld, regOfField_fieldOfReg]
  | st sr off => simp [encode, decode_st, regOfField_fieldOfReg]
  | jsr off =>
    rw [encode, decode_jsr (by simp) (formBit_wordOf (by decide) (bodyJSR_form off))]
    simp
  | jsrr base =>
    rw [encode, decode_jsrr (by simp) (formBit_wordOf (by decide) (bodyBase_form base))]
    simp [bodyBase_eq, regOfField_fieldOfReg]
  | andReg dr sr1 sr2 =>
    rw [encode, decode_andReg (by simp) (formBit_wordOf (by decide) (bodyOPR_form dr sr1 sr2))]
    simp [regOfField_fieldOfReg]
  | andImm dr sr1 imm =>
    rw [encode, decode_andImm (by simp) (formBit_wordOf (by decide) (bodyOPI_form dr sr1 imm))]
    simp [regOfField_fieldOfReg]
  | ldr dr base off => simp [encode, decode_ldr, regOfField_fieldOfReg]
  | str sr base off => simp [encode, decode_str, regOfField_fieldOfReg]
  | rti u => simp [encode, decode_rti]
  | notReg dr sr1 => simp [encode, decode_not, bodyNOT_eq, regOfField_fieldOfReg]
  | ldi dr off => simp [encode, decode_ldi, regOfField_fieldOfReg]
  | sti sr off => simp [encode, decode_sti, regOfField_fieldOfReg]
  | jmp base => simp [encode, decode_jmp, bodyBase_eq, regOfField_fieldOfReg]
  | res u => simp [encode, decode_res]
  | lea dr off => simp [encode, decode_lea, regOfField_fieldOfReg]
  | trap v => cases hwf
  | getc => exact decode_wordOf_trap _
  | out => exact decode_wordOf_trap _
  | puts => exact decode_wordOf_trap _
  | inEcho => exact decode_wordOf_trap _
  | putsp => exact decode_wordOf_trap _
  | halt => exact decode_wordOf_trap _
  | trapUnlisted v => exact (decode_wordOf_trap v).trans (refineTrap_unlisted (Option.isNone_iff_eq_none.mp hwf))

/-- Settles O54: the round trip per instruction; the generic TRAP row is refined by its vector. -/
theorem decodeEncodeRoundTrip : Obligations.DecodeEncodeRoundTrip := by
  unfold Obligations.DecodeEncodeRoundTrip
  exact ⟨decode_encode_of_wellFormed, decode_wordOf_trap⟩

end Sys2Proof
end

section
/-! The bits that R88's row of an instruction uses (30_encoding.md R88, R89). -/

namespace Sys2Proof

open Sys2Proof.Config (Slot Routine)
open Sys2Proof.Machine (params slotOf routineOf)
open Sys2Proof.Laws (slot)
open Sys2Proof.Claims (usedBits withoutIgnored)

/-! ### The TRAP rows -/

theorem trapvec_of_routineOf {v : Byte} {r : Routine} (h : routineOf v = some r) : params.trapvec r = v :=
  eq_of_beq (List.find?_some (p := fun q => params.trapvec q == v) h)

theorem encode_refineTrap (v : Byte) : encode (refineTrap v) = wordOf .trap (bodyTRAP v) := by
  cases h : routineOf v with
  | none => rw [refineTrap_unlisted h, encode]
  | some r =>
    rw [← trapvec_of_routineOf h]
    cases r <;> rfl

theorem usedBits_refineTrap (v : Byte) : usedBits (refineTrap v) = 0xF0FF := by
  unfold refineTrap
  split <;> rfl

theorem wellFormed_refineTrap (v : Byte) : (refineTrap v).wellFormed = true := by
  cases h : routineOf v with
  | none => simp [refineTrap_unlisted h, Instr.wellFormed, h]
  | some r => cases r <;> simp [refineTrap, h, Instr.wellFormed]

/-! ### Every decoded instruction is well formed (R81) -/

theorem wellFormed_of_slot_ne_trap {i : Instr} (h : slot i ≠ .trap) : i.wellFormed = true := by
  cases i with
  | trap => exact absurd rfl h
  | trapUnlisted => exact absurd rfl h
  | _ => rfl

theorem wellFormed_decode (ir : Word) : (decode ir).wellFormed = true := by
  by_cases h : slotOf (opcodeField ir) = .trap
  · rw [decode_trap h]
    exact wellFormed_refineTrap _
  · exact wellFormed_of_slot_ne_trap (slot_decode ir ▸ h)

/-! ### A word's fields put together again -/

section
variable (ir : Word)

theorem extractLsb'_one_eq_ofBool (i : Nat) : ir.extractLsb' i 1 = BitVec.ofBool (ir.getLsbD i) := by
  rw [BitVec.getLsbD_eq_extractLsb']
  generalize ir.extractLsb' i 1 = b
  revert b
  decide

/-- Bits 11 to 6 are the two register fields (R82). -/
theorem registerFields_eq : ir.extractLsb' 6 6 = fieldRA ir ++ fieldRB ir :=
  Eq.symm (BitVec.extractLsb'_append_extractLsb'_eq_extractLsb' (by decide))

theorem low12_eq_registerFields_append : ir.extractLsb' 0 12 = fieldRA ir ++ fieldRB ir ++ fieldOffset6 ir := by
  rw [← registerFields_eq]
  exact Eq.symm (BitVec.extractLsb'_append_extractLsb'_eq_extractLsb' (by decide))

theorem bodyBO6_fields :
    bodyBO6 (regOfField (fieldRA ir)) (regOfField (fieldRB ir)) (fieldOffset6 ir) = ir.extractLsb' 0 12 := by
  rw [bodyBO6, fieldOfReg_regOfField, fieldOfReg_regOfField, low12_eq_registerFields_append]

theorem bodyPC9_fields : bodyPC9 (regOfField (fieldRA ir)) (fieldOffset9 ir) = ir.extractLsb' 0 12 := by
  rw [bodyPC9, fieldOfReg_regOfField]
  exact BitVec.extractLsb'_append_extractLsb'_eq_extractLsb' (by decide)

theorem condField_bits : condField (ir.getLsbD 11) (ir.getLsbD 10) (ir.getLsbD 9) = fieldRA ir := by
  rw [condField, ← extractLsb'_one_eq_ofBool, ← extractLsb'_one_eq_ofBool, ← extractLsb'_one_eq_ofBool,
    BitVec.extractLsb'_append_extractLsb'_eq_extractLsb' (by decide)]
  exact BitVec.extractLsb'_append_extractLsb'_eq_extractLsb' (by decide)

theorem bodyBR_fields :
    condField (ir.getLsbD 11) (ir.getLsbD 10) (ir.getLsbD 9) ++ fieldOffset9 ir = ir.extractLsb' 0 12 := by
  rw [condField_bits]
  exact BitVec.extractLsb'_append_extractLsb'_eq_extractLsb' (by decide)

theorem bodyJSR_fields (hform : ir.getLsbD 11 = true) : 1#1 ++ fieldOffset11 ir = ir.extractLsb' 0 12 := by
  have hbit : 1#1 = ir.extractLsb' 11 1 := by rw [extractLsb'_one_eq_ofBool, hform]; rfl
  rw [hbit]
  exact BitVec.extractLsb'_append_extractLsb'_eq_extractLsb' (by decide)

theorem bodyOPI_fields (hform : ir.getLsbD 5 = true) :
    bodyOPI (regOfField (fieldRA ir)) (regOfField (fieldRB ir)) (fieldImm5 ir) = ir.extractLsb' 0 12 := by
  have hbit : 1#1 = ir.extractLsb' 5 1 := by rw [extractLsb'_one_eq_ofBool, hform]; rfl
  rw [bodyOPI, fieldOfReg_regOfField, fieldOfReg_regOfField, hbit, ← registerFields_eq,
    BitVec.extractLsb'_append_extractLsb'_eq_extractLsb' (by decide)]
  exact BitVec.extractLsb'_append_extractLsb'_eq_extractLsb' (by decide)

end

/-! ### A format with unused bits agrees with the word on the others -/

theorem and_append_congr {n k : Nat} {x x' m : BitVec n} {y y' l : BitVec k} (hx : x &&& m = x' &&& m)
    (hy : y &&& l = y' &&& l) : (x ++ y) &&& (m ++ l) = (x' ++ y') &&& (m ++ l) := by
  rw [BitVec.and_append, BitVec.and_append, hx, hy]

/-- Three bits that start with a clear form bit agree with 000 on it. -/
theorem zero_and_formBit : ∀ x : BitVec 3, x.getLsbD 2 = false → 0#3 &&& 4#3 = x &&& 4#3 := by decide

section
variable (ir : Word)

theorem bodyOPR_agrees (hform : ir.getLsbD 5 = false) :
    bodyOPR (regOfField (fieldRA ir)) (regOfField (fieldRB ir)) (regOfField (fieldRC ir)) &&& 0b111_111_1_00_111 =
      ir.extractLsb' 0 12 &&& 0b111_111_1_00_111 := by
  have hlow : ir.extractLsb' 0 12 = fieldRA ir ++ fieldRB ir ++ ir.extractLsb' 3 3 ++ fieldRC ir := by
    rw [← registerFields_eq, BitVec.extractLsb'_append_extractLsb'_eq_extractLsb' (by decide)]
    exact Eq.symm (BitVec.extractLsb'_append_extractLsb'_eq_extractLsb' (by decide))
  have hmid : 0#3 &&& 4#3 = ir.extractLsb' 3 3 &&& 4#3 :=
    zero_and_formBit _ ((BitVec.getLsbD_extractLsb' 3 3 ir 2).trans hform)
  rw [bodyOPR, fieldOfReg_regOfField, fieldOfReg_regOfField, fieldOfReg_regOfField, hlow]
  exact and_append_congr (m := 7#3 ++ 7#3 ++ 4#3) (l := 7#3) (and_append_congr rfl hmid) rfl

theorem bodyNOT_agrees :
    bodyNOT (regOfField (fieldRA ir)) (regOfField (fieldRB ir)) &&& 0b111_111_000000 =
      ir.extractLsb' 0 12 &&& 0b111_111_000000 := by
  rw [bodyNOT, fieldOfReg_regOfField, fieldOfReg_regOfField, low12_eq_registerFields_append]
  exact and_append_congr (m := 7#3 ++ 7#3) (l := 0#6) rfl BitVec.and_zero.symm

/-- `m` masks bits 11 to 9, of which only JSRR uses one, its form bit. -/
theorem bodyBase_agrees {m : BitVec 3} (hm : 0#3 &&& m = fieldRA ir &&& m) :
    bodyBase (regOfField (fieldRB ir)) &&& (m ++ 7#3 ++ 0#6) = ir.extractLsb' 0 12 &&& (m ++ 7#3 ++ 0#6) := by
  rw [bodyBase, fieldOfReg_regOfField, low12_eq_registerFields_append]
  exact and_append_congr (and_append_congr hm rfl) BitVec.and_zero.symm

theorem bodyTRAP_agrees : bodyTRAP (fieldVector ir) &&& 0xFF = ir.extractLsb' 0 12 &&& 0xFF := by
  have hlow : ir.extractLsb' 0 12 = ir.extractLsb' 8 4 ++ fieldVector ir :=
    Eq.symm (BitVec.extractLsb'_append_extractLsb'_eq_extractLsb' (by decide))
  rw [bodyTRAP, hlow]
  exact and_append_congr (m := 0#4) (l := 0xFF#8) BitVec.and_zero.symm rfl

end

/-! ### The word of the decoded instruction -/

section
variable {ir : Word} {t : Slot} {x : BitVec 12}

theorem wordOf_agrees (ht : slotOf (opcodeField ir) = t) {m : BitVec 12} (h : x &&& m = ir.extractLsb' 0 12 &&& m) :
    wordOf t x &&& (0xF#4 ++ m) = ir &&& (0xF#4 ++ m) := by
  conv_rhs => rw [wordOf_body ir, ht]
  exact and_append_congr rfl h

/-- A format without unused bits gives the word back whole. -/
theorem wordOf_agrees_whole (ht : slotOf (opcodeField ir) = t) (h : x = ir.extractLsb' 0 12) (m : Word) :
    wordOf t x &&& m = ir &&& m := by
  rw [h, ← ht, ← wordOf_body]

end

/-- R88: the word that encodes the decoding agrees with the decoded word on the bits its row uses. -/
theorem encode_decode_agrees (ir : Word) :
    encode (decode ir) &&& usedBits (decode ir) = ir &&& usedBits (decode ir) := by
  cases hs : slotOf (opcodeField ir) with
  | br => rw [decode_br hs]; exact wordOf_agrees_whole hs (bodyBR_fields ir) _
  | add =>
    cases hform : ir.getLsbD 5 with
    | false => rw [decode_addReg hs hform]; exact wordOf_agrees hs (bodyOPR_agrees ir hform)
    | true => rw [decode_addImm hs hform]; exact wordOf_agrees_whole hs (bodyOPI_fields ir hform) _
  | ld => rw [decode_ld hs]; exact wordOf_agrees_whole hs (bodyPC9_fields ir) _
  | st => rw [decode_st hs]; exact wordOf_agrees_whole hs (bodyPC9_fields ir) _
  | jsr =>
    cases hform : ir.getLsbD 11 with
    | false =>
      have hbit : 0#3 &&& 4#3 = fieldRA ir &&& 4#3 :=
        zero_and_formBit _ ((BitVec.getLsbD_extractLsb' 9 3 ir 2).trans hform)
      rw [decode_jsrr hs hform]; exact wordOf_agrees hs (bodyBase_agrees ir hbit)
    | true => rw [decode_jsr hs hform]; exact wordOf_agrees_whole hs (bodyJSR_fields ir hform) _
  | and =>
    cases hform : ir.getLsbD 5 with
    | false => rw [decode_andReg hs hform]; exact wordOf_agrees hs (bodyOPR_agrees ir hform)
    | true => rw [decode_andImm hs hform]; exact wordOf_agrees_whole hs (bodyOPI_fields ir hform) _
  | ldr => rw [decode_ldr hs]; exact wordOf_agrees_whole hs (bodyBO6_fields ir) _
  | str => rw [decode_str hs]; exact wordOf_agrees_whole hs (bodyBO6_fields ir) _
  | rti => rw [decode_rti hs]; exact wordOf_agrees_whole hs rfl _
  | not => rw [decode_not hs]; exact wordOf_agrees hs (bodyNOT_agrees ir)
  | ldi => rw [decode_ldi hs]; exact wordOf_agrees_whole hs (bodyPC9_fields ir) _
  | sti => rw [decode_sti hs]; exact wordOf_agrees_whole hs (bodyPC9_fields ir) _
  | jmp => rw [decode_jmp hs]; exact wordOf_agrees hs (bodyBase_agrees ir (m := 0#3) BitVec.and_zero.symm)
  | res => rw [decode_res hs]; exact wordOf_agrees_whole hs rfl _
  | lea => rw [decode_lea hs]; exact wordOf_agrees_whole hs (bodyPC9_fields ir) _
  | trap =>
    rw [decode_trap hs, encode_refineTrap, usedBits_refineTrap]
    exact wordOf_agrees hs (bodyTRAP_agrees ir)

/-! ### Words that agree on the used bits -/

section
variable {a b m : Word}

theorem extractLsb'_eq_of_agree (h : a &&& m = b &&& m) {start len : Nat}
    (hm : m.extractLsb' start len = BitVec.allOnes len) : a.extractLsb' start len = b.extractLsb' start len := by
  have hfield := congrArg (BitVec.extractLsb' start len) h
  simpa only [BitVec.extractLsb'_and, hm, BitVec.and_allOnes] using hfield

theorem getLsbD_eq_of_agree (h : a &&& m = b &&& m) {i : Nat} (hm : m.getLsbD i = true) :
    a.getLsbD i = b.getLsbD i := by
  have hbit := congrArg (fun w => BitVec.getLsbD w i) h
  simpa only [BitVec.getLsbD_and, hm, Bool.and_true] using hbit

theorem eq_of_agree_whole (h : a &&& m = b &&& m) (hm : m = BitVec.allOnes 16) : a = b := by
  simpa only [hm, BitVec.and_allOnes] using h

/-- The fields that R88's OPR row uses. -/
theorem oprFields_of_agree (h : a &&& 0b1111_111_111_1_00_111 = b &&& 0b1111_111_111_1_00_111) :
    fieldRA a = fieldRA b ∧ fieldRB a = fieldRB b ∧ fieldRC a = fieldRC b ∧ a.getLsbD 5 = b.getLsbD 5 :=
  ⟨extractLsb'_eq_of_agree h (by decide), extractLsb'_eq_of_agree h (by decide),
    extractLsb'_eq_of_agree h (by decide), getLsbD_eq_of_agree h (by decide)⟩

end

/-- R88: every row uses the opcode. -/
theorem opcodeField_usedBits (i : Instr) : opcodeField (usedBits i) = BitVec.allOnes 4 := by
  cases i <;> simp only [usedBits] <;> decide

/-- R89: a word that agrees on the used bits decodes alike. Where every bit is used there is one such word; for
RTI and RES the opcode decides. -/
theorem withoutIgnored_decode_eq_of_agree {ir ir' : Word}
    (h : ir' &&& usedBits (decode ir) = ir &&& usedBits (decode ir)) :
    withoutIgnored (decode ir') = withoutIgnored (decode ir) := by
  by_cases hwhole : usedBits (decode ir) = BitVec.allOnes 16
  · rw [eq_of_agree_whole h hwhole]
  have hop : opcodeField ir' = opcodeField ir := extractLsb'_eq_of_agree h (opcodeField_usedBits _)
  cases hs : slotOf (opcodeField ir) with
  | br => exact absurd (congrArg usedBits (decode_br hs)) hwhole
  | add =>
    cases hform : ir.getLsbD 5 with
    | true => exact absurd (congrArg usedBits (decode_addImm hs hform)) hwhole
    | false =>
      have hmask : usedBits (decode ir) = 0b1111_111_111_1_00_111 := congrArg usedBits (decode_addReg hs hform)
      rw [hmask] at h
      obtain ⟨hra, hrb, hrc, hbit⟩ := oprFields_of_agree h
      rw [decode_addReg hs hform, decode_addReg (hop ▸ hs) (hbit.trans hform), hra, hrb, hrc]
  | ld => exact absurd (congrArg usedBits (decode_ld hs)) hwhole
  | st => exact absurd (congrArg usedBits (decode_st hs)) hwhole
  | jsr =>
    cases hform : ir.getLsbD 11 with
    | true => exact absurd (congrArg usedBits (decode_jsr hs hform)) hwhole
    | false =>
      have hmask : usedBits (decode ir) = 0b1111_1_00_111_000000 := congrArg usedBits (decode_jsrr hs hform)
      rw [hmask] at h
      have hbit : ir'.getLsbD 11 = ir.getLsbD 11 := getLsbD_eq_of_agree h (by decide)
      have hrb : fieldRB ir' = fieldRB ir := extractLsb'_eq_of_agree h (by decide)
      rw [decode_jsrr hs hform, decode_jsrr (hop ▸ hs) (hbit.trans hform), hrb]
  | and =>
    cases hform : ir.getLsbD 5 with
    | true => exact absurd (congrArg usedBits (decode_andImm hs hform)) hwhole
    | false =>
      have hmask : usedBits (decode ir) = 0b1111_111_111_1_00_111 := congrArg usedBits (decode_andReg hs hform)
      rw [hmask] at h
      obtain ⟨hra, hrb, hrc, hbit⟩ := oprFields_of_agree h
      rw [decode_andReg hs hform, decode_andReg (hop ▸ hs) (hbit.trans hform), hra, hrb, hrc]
  | ldr => exact absurd (congrArg usedBits (decode_ldr hs)) hwhole
  | str => exact absurd (congrArg usedBits (decode_str hs)) hwhole
  | rti => rw [decode_rti hs, decode_rti (hop ▸ hs)]; rfl
  | not =>
    have hmask : usedBits (decode ir) = 0b1111_111_111_000000 := congrArg usedBits (decode_not hs)
    rw [hmask] at h
    have hra : fieldRA ir' = fieldRA ir := extractLsb'_eq_of_agree h (by decide)
    have hrb : fieldRB ir' = fieldRB ir := extractLsb'_eq_of_agree h (by decide)
    rw [decode_not hs, decode_not (hop ▸ hs), hra, hrb]
  | ldi => exact absurd (congrArg usedBits (decode_ldi hs)) hwhole
  | sti => exact absurd (congrArg usedBits (decode_sti hs)) hwhole
  | jmp =>
    have hmask : usedBits (decode ir) = 0b1111_000_111_000000 := congrArg usedBits (decode_jmp hs)
    rw [hmask] at h
    have hrb : fieldRB ir' = fieldRB ir := extractLsb'_eq_of_agree h (by decide)
    rw [decode_jmp hs, decode_jmp (hop ▸ hs), hrb]
  | res => rw [decode_res hs, decode_res (hop ▸ hs)]; rfl
  | lea => exact absurd (congrArg usedBits (decode_lea hs)) hwhole
  | trap =>
    rw [decode_trap hs, usedBits_refineTrap] at h
    have hvector : fieldVector ir' = fieldVector ir := extractLsb'_eq_of_agree h (by decide)
    rw [decode_trap hs, decode_trap (hop ▸ hs), hvector]

/-- Settles O55: the decoding is well formed, its word agrees on the used bits, and these decide it. -/
theorem unusedBitsAreIgnored : Obligations.UnusedBitsAreIgnored := by
  unfold Obligations.UnusedBitsAreIgnored
  exact fun ir => ⟨wellFormed_decode ir, encode_decode_agrees ir, fun _ h => withoutIgnored_decode_eq_of_agree h⟩

end Sys2Proof
end

section
/-! Proofs of the family `40_fetch_dispatch.md`: what the step does with each outcome of the fetch (R110 to
R117), the fetch at KBSR (R116, R120), and which instruction can halt the machine (R117, R208). -/

namespace Sys2Proof.Machine

open Sys2Proof.Config (IOReport ReadResult TrapPolicy)
open Sys2Proof.Claims

/-! ### The step, by the outcome of its fetch -/

/-- R115: whatever word the fetch gives, its instruction runs on the state with the PC advanced. -/
theorem step_of_fetch_done {s s1 : State} {ir : Word} (hrun : s.run = .running) (hfetch : fetch s = .done ir s1) :
    step s = exec (decode ir) s1.advance := by
  simp only [step, hrun, hfetch]

/-- R120: a fetch whose poll fails ends the run before the increment. -/
theorem step_of_fetch_failed {s s1 : State} {r : IOReport} (hrun : s.run = .running)
    (hfetch : fetch s = .failed r s1) : step s = .next { s1 with run := .faulted (.ioFault r s.pc) } := by
  simp only [step, hrun, hfetch, raise]

/-- Settles O40: the first part is the plain fetch, the second any fetch that gives a word. -/
theorem stepRunsDecodedInstruction : Obligations.StepRunsDecodedInstruction := by
  unfold Obligations.StepRunsDecodedInstruction
  intro s hrun
  exact ⟨fun hpc => step_of_runs ⟨hrun, hpc, rfl⟩, fun _ _ hfetch => step_of_fetch_done hrun hfetch⟩

/-- Settles O42: a step that answers a next state was taken by a RUNNING machine. -/
theorem noStepUnlessRunning : Obligations.NoStepUnlessRunning := by
  unfold Obligations.NoStepUnlessRunning
  intro s hrun t hstep
  exact hrun (step_cases hstep).1

/-! ### A fetch at the status word (R116, R120) -/

/-- The address of the instruction, of which the increment has left the PC one ahead. -/
@[simp] theorem State.advance_pc0 (s : State) : s.advance.pc0 = s.pc := BitVec.add_sub_cancel _ _

theorem fetch_atStatus {s : State} (hpc : s.pc = params.kbsr) : fetch s = memRead params.kbsr s :=
  congrArg (memRead · s) hpc

/-- The status word 0x0000, no key, is a BR on no flag (D1, D10). -/
theorem decode_statusClear : decode 0x0000 = .br false false false 0 := by decide

/-- The status word 0x8000, a key, is an RTI (D1, D10). -/
theorem decode_statusSet : decode 0x8000 = .rti 0 := by decide

/-- R150: a BR on no flag is never taken. -/
theorem exec_br_never (off : BitVec 9) (s : State) : exec (.br false false false off) s = .next s := by
  have hnever : condTest false false false s.cond = false := by cases s.cond <;> rfl
  rw [exec_br_eq, hnever]
  rfl

/-- R230: RTI changes the run state only. -/
theorem exec_rti_eq (unused : BitVec 12) (s : State) : exec (.rti unused) s =
    .next { s with run := .faulted (.unknownOpcode .rti (encode (.rti unused)) s.pc0) } := rfl

section
variable {s : State} {ks : List Bool} (hrun : s.run = .running) (hpc : s.pc = params.kbsr)
include hrun hpc

theorem step_atStatus_noKey (hkeys : s.iob.keys = false :: ks) :
    step s = .next (({ s with iob := { s.iob with keys := ks } } : State).poke params.kbsr 0x0000).advance := by
  rw [step_of_fetch_done hrun ((fetch_atStatus hpc).trans (memRead_noKey hkeys)), decode_statusClear, exec_br_never]

/-- The poll reads the status word set and leaves the character in M[KBDR]; the RTI then ends the run. -/
theorem step_atStatus_key {b : Byte} {cs : List ReadResult} (hkeys : s.iob.keys = true :: ks)
    (hinput : s.iob.input = .byte b :: cs) :
    ∃ s1, ReadFrame s s1 ∧ s1.peek params.kbdr = zext16 b ∧
      step s = .next { s1.advance with run := .faulted (.unknownOpcode .rti 0x8000 params.kbsr) } := by
  have hread := memRead_key hkeys hinput
  have hframe := (memRead_done hread).1
  refine ⟨_, hframe, State.poke_peek_same _ _ _, ?_⟩
  rw [step_of_fetch_done hrun ((fetch_atStatus hpc).trans hread), decode_statusSet, exec_rti_eq,
    State.advance_pc0, hframe.pc, hpc]
  rfl

theorem step_atStatus_fail {r : IOReport} {cs : List ReadResult} (hkeys : s.iob.keys = true :: ks)
    (hinput : s.iob.input = .fail r :: cs) :
    step s = .next { ({ s with iob := { s.iob with keys := ks, input := cs } } : State).poke params.kbsr 0x8000 with
      run := .faulted (.ioFault r params.kbsr) } := by
  rw [step_of_fetch_failed hrun ((fetch_atStatus hpc).trans (memRead_fail hkeys hinput)), hpc]

end

/-- Settles O41, one case per answer of the bridge. -/
theorem fetchAtStatusPolls : Obligations.FetchAtStatusPolls := by
  unfold Obligations.FetchAtStatusPolls
  intro s hrun hpc
  refine ⟨fun ks hkeys => ?_, fun ks b cs hkeys hinput => ?_, fun ks r cs hkeys hinput => ?_⟩
  · exact ⟨_, step_atStatus_noKey hrun hpc hkeys,
      State.poke_storesOnly { s with pc := s.pc + 1, iob := { s.iob with keys := ks } } _ _⟩
  · obtain ⟨s1, hframe, hchar, hstep⟩ := step_atStatus_key hrun hpc hkeys hinput
    exact ⟨_, hstep, rfl, congrArg (· + 1) hframe.pc, hframe.cond, hframe.reg,
      hchar.trans (zext16_eq_ofNat b), hframe.peek⟩
  · exact ⟨_, step_atStatus_fail hrun hpc hkeys hinput, rfl, hpc, rfl, fun _ => rfl,
      s.poke_peek_same params.kbsr 0x8000, s.poke_peek_other params.kbsr 0x8000⟩

/-! ### Who changes the run state (R117, R118)

Every handler but HALT's leaves the run state or raises a fault; it never sets HALTED. -/

/-- From `s` to `t` the run state is kept, or a fault was raised. -/
def RunKeptOrFaulted (s t : State) : Prop := t.run = s.run ∨ ∃ f, t.run = .faulted f

theorem RunKeptOrFaulted.not_halted {s t : State} (h : RunKeptOrFaulted s t) (hs : s.run = .running) :
    t.run ≠ .halted := by
  obtain hkept | ⟨f, hfaulted⟩ := h
  · simp [hkept, hs]
  · simp [hfaulted]

theorem RunKeptOrFaulted.of_run_eq {s s1 t : State} (h : RunKeptOrFaulted s1 t) (hrun : s1.run = s.run) :
    RunKeptOrFaulted s t :=
  h.imp_left (·.trans hrun)

theorem raise_run {f : FaultRecord} (s : State) {s1 t : State} (h : raise f s1 = .next t) : RunKeptOrFaulted s t := by
  cases h; exact .inr ⟨f, rfl⟩

theorem loadInto_run {dr : Reg} {ea : Word} {s t : State} (h : loadInto dr ea s = .next t) :
    RunKeptOrFaulted s t := by
  obtain ⟨w, s1, hread, hnext⟩ | ⟨r, s1, -, hnext⟩ := loadInto_cases dr ea s
  · cases hnext.symm.trans h; exact .inl (memRead_done hread).1.run
  · cases hnext.symm.trans h; exact .inr ⟨_, rfl⟩

/-- LDI: a load behind the pointer read, or the fault of that read. -/
theorem execLdi_run {dr : Reg} {off : BitVec 9} {s t : State} (h : execLdi dr off s = .next t) :
    RunKeptOrFaulted s t := by
  unfold execLdi at h
  cases hread : memRead (pcRelative off s) s with
  | done ea s1 => rw [hread] at h; exact (loadInto_run h).of_run_eq (memRead_done hread).1.run
  | failed r s1 => rw [hread] at h; exact raise_run s h

/-- STI: a store behind the pointer read, or the fault of that read. -/
theorem execSti_run {sr : Reg} {off : BitVec 9} {s t : State} (h : execSti sr off s = .next t) :
    RunKeptOrFaulted s t := by
  unfold execSti at h
  cases hread : memRead (pcRelative off s) s with
  | done ea s1 => rw [hread] at h; cases h; exact .inl (memRead_done hread).1.run
  | failed r s1 => rw [hread] at h; exact raise_run s h

theorem writeString_run {bytes : Word → List Byte} {s t : State} (h : writeString bytes s = .next t) :
    RunKeptOrFaulted s t := by
  obtain ⟨u, hu, hnext⟩ | ⟨r, u, -, hnext⟩ | hhang := writeString_cases bytes s
  · cases hnext.symm.trans h; exact .inl hu.run
  · cases hnext.symm.trans h; exact .inr ⟨_, rfl⟩
  · cases hhang.symm.trans h

theorem State.readChar_run {s t : State} {c : ReadResult} (h : s.readChar = some (c, t)) : t.run = s.run := by
  obtain ⟨_, _, -, hsome⟩ | ⟨-, hnone⟩ := s.readChar_cases
  · cases hsome.symm.trans h; rfl
  · cases hnone.symm.trans h

/-- R203: a character, a failing read, or none yet, and the step is held. -/
theorem execGetc_run {s t : State} (h : execGetc s = .next t) : RunKeptOrFaulted s t := by
  unfold execGetc routineGetc at h
  split at h
  · next c s1 hread =>
    cases h
    have hkept : s1.run = (link s).run := State.readChar_run hread
    exact .inl hkept
  · exact raise_run s h
  · cases h; exact .inl rfl

/-- R206: as for GETC. -/
theorem execIn_run {s t : State} (h : execIn s = .next t) : RunKeptOrFaulted s t := by
  unfold execIn routineIn at h
  split at h
  · next c s1 hread =>
    cases h
    have hkept : s1.run = (link s).promptOut.run := State.readChar_run hread
    exact .inl hkept
  · exact raise_run s h
  · cases h; exact .inl rfl

theorem routineUnlisted_run (policy : TrapPolicy) (v : Byte) {s t : State}
    (h : routineUnlisted policy v s = .next t) : RunKeptOrFaulted s t := by
  cases policy with
  | fault => exact raise_run s h
  | nop => cases h; exact .inl rfl

/-- R118: of the instructions that a word decodes to, only HALT does more to the run state than fault. -/
theorem exec_run {i : Instr} {s t : State} (hwf : i.wellFormed = true) (hi : i ≠ .halt) (h : exec i s = .next t) :
    RunKeptOrFaulted s t := by
  cases i with
  | br n z p off => cases (exec_br_eq n z p off s).symm.trans h; exact .inl rfl
  | addReg | addImm | andReg | andImm | notReg | lea | jmp | jsr | jsrr | st | str | out => cases h; exact .inl rfl
  | ld | ldr => exact loadInto_run h
  | ldi => exact execLdi_run h
  | sti => exact execSti_run h
  | rti | res => exact raise_run s h
  | getc => exact execGetc_run h
  | inEcho => exact execIn_run h
  | puts | putsp => exact writeString_run (s := link s) h
  | trapUnlisted v => exact routineUnlisted_run (s := link s) params.unknownTrapPolicy v h
  | halt => exact absurd rfl hi
  | trap => cases hwf

/-- Settles O49: a decoded word is well formed, so any other handler keeps RUNNING or faults, and a failing
fetch faults. -/
theorem onlyHaltHalts : Obligations.OnlyHaltHalts := by
  unfold Obligations.OnlyHaltHalts
  intro s t hstep hhalted
  obtain ⟨hrun, ⟨ir, s1, hfetch, hread, hexec⟩ | ⟨r, s1, -, -, rfl⟩⟩ := step_cases hstep
  · refine ⟨ir, s1, hfetch, by_contra fun hne => ?_⟩
    have hadvanced : s1.advance.run = .running := hread.run.trans hrun
    exact (exec_run (wellFormed_decode ir) hne hexec).not_halted hadvanced hhalted
  · cases hhalted

end Sys2Proof.Machine
end

section
/-! Proofs of the family `41_operate.md`: each operate instruction is one register write (R137), and its value
is the one the rule names (R132 to R136). -/

namespace Sys2Proof.Machine

open Sys2Proof.Claims

/-! ### The handlers as register writes -/

theorem exec_addReg_eq (dr sr1 sr2 : Reg) (s : State) :
    exec (.addReg dr sr1 sr2) s = .next (s.setReg dr (s.reg sr1 + s.reg sr2)) := rfl

theorem exec_addImm_eq (dr sr1 : Reg) (imm : BitVec 5) (s : State) :
    exec (.addImm dr sr1 imm) s = .next (s.setReg dr (s.reg sr1 + sext imm)) := rfl

theorem exec_andReg_eq (dr sr1 sr2 : Reg) (s : State) :
    exec (.andReg dr sr1 sr2) s = .next (s.setReg dr (s.reg sr1 &&& s.reg sr2)) := rfl

theorem exec_andImm_eq (dr sr1 : Reg) (imm : BitVec 5) (s : State) :
    exec (.andImm dr sr1 imm) s = .next (s.setReg dr (s.reg sr1 &&& sext imm)) := rfl

theorem exec_notReg_eq (dr sr1 : Reg) (s : State) :
    exec (.notReg dr sr1) s = .next (s.setReg dr (~~~ (s.reg sr1))) := rfl

/-- R137: an instruction that is a register write of `u` changes nothing else; `v` is the rule's form of `u`. -/
theorem exec_writesOnly {i : Instr} {s : State} {d : Reg} {u v : Word} (h : exec i s = .next (s.setReg d u))
    (huv : u = v) : ∃ t, exec i s = .next t ∧ WritesOnly d v s t :=
  ⟨_, h, huv ▸ s.setReg_writesOnly d u⟩

/-! ### The values in exact integers and bit by bit -/

/-- R86, R131: adding the extended field is adding its signed value and narrowing at the end. -/
theorem add_sext_eq_plusSigned {n : Nat} (hpos : 0 < n) (hle : n ≤ 16) (a : Word) (f : BitVec n) :
    a + sext f = plusSigned a f := by
  have hvalue : (sext f).toInt = f.toInt := signExtensionKeepsValue n f hpos hle
  rw [plusSigned, ← hvalue, BitVec.ofInt_add, BitVec.ofInt_natCast, BitVec.ofNat_toNat, BitVec.setWidth_eq,
    BitVec.ofInt_toInt]

/-- R86: from the field's last bit on, every bit of the extension is that bit. -/
theorem getLsbD_sext {n k : Nat} (hn : 0 < n) (hk : k < 16) (f : BitVec n) :
    (sext f).getLsbD k = f.getLsbD (min k (n - 1)) := by
  rw [sext_eq_signExtend, BitVec.getLsbD_signExtend, decide_eq_true hk, Bool.true_and]
  by_cases hkn : k < n
  · rw [if_pos hkn, Nat.min_eq_left (by omega)]
  · rw [if_neg hkn, Nat.min_eq_right (by omega), BitVec.msb_eq_getLsbD_last]

theorem not_eq_ofNat_sub_toNat (a : Word) : ~~~ a = BitVec.ofNat 16 (0xFFFF - a.toNat) :=
  BitVec.eq_of_toNat_eq (by rw [BitVec.toNat_not, BitVec.toNat_ofNat]; omega)

/-! ### The statements -/

/-- Settles O4: the sum of two words is their exact sum, narrowed. -/
theorem addRegisterForm : Obligations.AddRegisterForm := by
  unfold Obligations.AddRegisterForm
  intro s dr sr1 sr2
  exact exec_writesOnly (exec_addReg_eq dr sr1 sr2 s) (BitVec.add_def _ _)

/-- Settles O5: five bits are at most sixteen, so the extension keeps the immediate's signed value. -/
theorem addImmediateForm : Obligations.AddImmediateForm := by
  unfold Obligations.AddImmediateForm
  intro s dr sr1 imm
  exact exec_writesOnly (exec_addImm_eq dr sr1 imm s) (add_sext_eq_plusSigned (by decide) (by decide) _ _)

/-- Settles O6: the written value is the rule's own. -/
theorem andRegisterForm : Obligations.AndRegisterForm := by
  unfold Obligations.AndRegisterForm
  intro s dr sr1 sr2
  exact exec_writesOnly (exec_andReg_eq dr sr1 sr2 s) rfl

/-- Settles O7: an and is taken bit by bit, and the bits of the extended immediate are known. -/
theorem andImmediateForm : Obligations.AndImmediateForm := by
  unfold Obligations.AndImmediateForm
  intro s dr sr1 imm
  refine ⟨_, _, exec_andImm_eq dr sr1 imm s, s.setReg_writesOnly dr _, fun k hk => ?_⟩
  rw [BitVec.getLsbD_and, getLsbD_sext (by decide) hk]

/-- Settles O8: the complement of a word is 0xFFFF minus it. -/
theorem notComplementsAllBits : Obligations.NotComplementsAllBits := by
  unfold Obligations.NotComplementsAllBits
  intro s dr sr1
  exact exec_writesOnly (exec_notReg_eq dr sr1 s) (not_eq_ofNat_sub_toNat _)

end Sys2Proof.Machine
end

section
/-! Proofs of the family `42_control.md`: the branch test on the flag (R150), and the control transfers as one
write of the PC, behind the link write for JSR and JSRR (R153 to R157). -/

namespace Sys2Proof.Machine

open Sys2Proof.Claims

/-! ### The handlers as writes of the PC -/

/-- R150, D4: the test of the three bits at once is one test for each flag. -/
theorem condTest_eq_true_iff (n z p : Bool) (c : Cond) :
    condTest n z p c = true ↔ (n = true ∧ c = .n) ∨ (z = true ∧ c = .z) ∨ (p = true ∧ c = .p) := by
  cases c with
  | n | z | p => revert n z p; decide

theorem exec_jmp_eq (base : Reg) (s : State) : exec (.jmp base) s = .next (s.setPc (s.reg base)) := rfl

/-- R155, R131: the jump goes by the offset's signed value, from the PC that is linked. -/
theorem exec_jsr_eq (off : BitVec 11) (s : State) :
    exec (.jsr off) s = .next ((link s).setPc (plusSigned s.pc off)) := by
  rw [← add_sext_eq_plusSigned (by decide) (by decide)]
  rfl

theorem exec_jsrr_eq (base : Reg) (s : State) :
    exec (.jsrr base) s = .next ((link s).setPc ((link s).reg base)) := rfl

/-! ### The link write -/

@[simp] theorem link_reg_r7 (s : State) : (link s).reg .r7 = s.pc := s.setReg_reg_same .r7 s.pc

/-- R156: only R7 reads otherwise after the link write. -/
theorem link_reg (s : State) (r : Reg) : (link s).reg r = if r = .r7 then s.pc else s.reg r := by
  by_cases h : r = .r7
  · rw [if_pos h, h, link_reg_r7]
  · rw [if_neg h, link_eq, s.setReg_reg_other .r7 s.pc r h]

/-- R155, R156: but for the jump, a call is the write of R7. -/
theorem link_setPc_writesOnly (s : State) (target : Word) :
    WritesOnly .r7 s.pc s { (link s).setPc target with pc := s.pc } :=
  s.setReg_writesOnly .r7 s.pc

/-! ### The statements -/

/-- Settles O13: the fetch at the target is plain too, and the call kept its word and left the link in R7. -/
theorem callReturnsBehindJsr : Obligations.CallReturnsBehindJsr := by
  unfold Obligations.CallReturnsBehindJsr
  intro s off hruns htarget hjmp
  have hcall : step s = .next ((link s.advance).setPc (plusSigned (s.pc + 1) off)) := by
    rw [step_of_runs hruns, exec_jsr_eq, State.advance_pc]
  have hreturns : Runs ((link s.advance).setPc (plusSigned (s.pc + 1) off)) (.jmp .r7) :=
    ⟨hruns.1, htarget, hjmp⟩
  have hlink : (link s.advance).reg .r7 = s.pc + 1 := link_reg_r7 s.advance
  exact ⟨_, _, hcall, hlink, rfl, (step_of_runs hreturns).trans (exec_jmp_eq _ _), hlink⟩

/-- Settles O9: not taken, the branch leaves the state as it is. -/
theorem branchOnCondition : Obligations.BranchOnCondition := by
  unfold Obligations.BranchOnCondition
  intro s n z p off
  rw [exec_br_eq, pcRelative, add_sext_eq_plusSigned (by decide) (by decide)]
  cases htest : condTest n z p s.cond with
  | true => rw [if_pos ((condTest_eq_true_iff n z p s.cond).mp htest)]; rfl
  | false => rw [if_neg (mt (condTest_eq_true_iff n z p s.cond).mpr (Bool.eq_false_iff.mp htest))]; rfl

/-- Settles O10: the handler is one write of the PC. -/
theorem jumpToRegister : Obligations.JumpToRegister := by
  unfold Obligations.JumpToRegister
  exact fun s base => exec_jmp_eq base s

/-- Settles O11: the target is counted from the PC that R7 gets. -/
theorem jsrLinksThenJumps : Obligations.JsrLinksThenJumps := by
  unfold Obligations.JsrLinksThenJumps
  exact fun s off => ⟨_, exec_jsr_eq off s, rfl, link_setPc_writesOnly s _⟩

/-- Settles O12: the target is what the base register reads after the link write. -/
theorem jsrrReadsBaseAfterLink : Obligations.JsrrReadsBaseAfterLink := by
  unfold Obligations.JsrrReadsBaseAfterLink
  exact fun s base => ⟨_, exec_jsrr_eq base s, link_reg s base, link_setPc_writesOnly s _⟩

end Sys2Proof.Machine
end

section
/-! Proofs of the family `43_load_store.md`: a load is its operand read and one register write (R171 to R173), a
store is a plain write of memory (R175 to R177), and a read that fails ends the step in its fault (R245). -/

namespace Sys2Proof.Machine

open Sys2Proof.Config (IOReport)
open Sys2Proof.Claims

/-! ### The addresses in exact integers (R170, R131) -/

theorem pcRelative_eq_plusSigned (off : BitVec 9) (s : State) : pcRelative off s = plusSigned s.pc off :=
  add_sext_eq_plusSigned (by decide) (by decide) s.pc off

theorem baseOffset_eq_plusSigned (base : Reg) (off : BitVec 6) (s : State) :
    baseOffset base off s = plusSigned (s.reg base) off :=
  add_sext_eq_plusSigned (by decide) (by decide) (s.reg base) off

/-! ### The handlers as loads and stores -/

theorem exec_ld_eq (dr : Reg) (off : BitVec 9) (s : State) :
    exec (.ld dr off) s = loadInto dr (plusSigned s.pc off) s :=
  congrArg (loadInto dr · s) (pcRelative_eq_plusSigned off s)

theorem exec_ldr_eq (dr base : Reg) (off : BitVec 6) (s : State) :
    exec (.ldr dr base off) s = loadInto dr (plusSigned (s.reg base) off) s :=
  congrArg (loadInto dr · s) (baseOffset_eq_plusSigned base off s)

theorem exec_lea_eq (dr : Reg) (off : BitVec 9) (s : State) :
    exec (.lea dr off) s = .next (s.setReg dr (plusSigned s.pc off)) :=
  congrArg (fun a => Host.Outcome.next (s.setReg dr a)) (pcRelative_eq_plusSigned off s)

theorem exec_st_eq (sr : Reg) (off : BitVec 9) (s : State) :
    exec (.st sr off) s = .next (s.poke (plusSigned s.pc off) (s.reg sr)) :=
  congrArg (fun a => Host.Outcome.next (s.poke a (s.reg sr))) (pcRelative_eq_plusSigned off s)

theorem exec_str_eq (sr base : Reg) (off : BitVec 6) (s : State) :
    exec (.str sr base off) s = .next (s.poke (plusSigned (s.reg base) off) (s.reg sr)) :=
  congrArg (fun a => Host.Outcome.next (s.poke a (s.reg sr))) (baseOffset_eq_plusSigned base off s)

/-! ### The handlers behind a pointer read (R180) -/

section
variable {s s1 : State} {off : BitVec 9} {ea : Word} {r : IOReport}

theorem exec_ldi_of_done (dr : Reg) (hread : memRead (plusSigned s.pc off) s = .done ea s1) :
    exec (.ldi dr off) s = loadInto dr ea s1 := by
  change execLdi dr off s = _
  simp only [execLdi, pcRelative_eq_plusSigned, hread]

theorem exec_ldi_of_failed (dr : Reg) (hread : memRead (plusSigned s.pc off) s = .failed r s1) :
    exec (.ldi dr off) s = raiseIO r s1 := by
  change execLdi dr off s = _
  simp only [execLdi, pcRelative_eq_plusSigned, hread]

/-- The pointer read keeps the registers, so the stored word may be named by the state before it. -/
theorem exec_sti_of_done (sr : Reg) (hread : memRead (plusSigned s.pc off) s = .done ea s1) :
    exec (.sti sr off) s = .next (s1.poke ea (s.reg sr)) := by
  change execSti sr off s = _
  simp only [execSti, pcRelative_eq_plusSigned, hread, memWrite, (memRead_done hread).1.reg]

theorem exec_sti_of_failed (sr : Reg) (hread : memRead (plusSigned s.pc off) s = .failed r s1) :
    exec (.sti sr off) s = raiseIO r s1 := by
  change execSti sr off s = _
  simp only [execSti, pcRelative_eq_plusSigned, hread]

end

/-! ### A read that fails, and the operand read of a load

`s1` is the state that the reads before this one, if any, have left. -/

section
variable {i : Instr} {s s1 s2 : State} {d : Reg} {ea : Word}

/-- R245: the fault raised at a failing read has changed only what the reads have, and the run state. -/
theorem exec_faultedIO {r : IOReport} (hframe : ReadFrame s s1) (hread : memRead ea s1 = .failed r s2)
    (hexec : exec i s = raiseIO r s2) : ∃ t, exec i s = .next t ∧ FaultedIO r s s2 t := by
  obtain ⟨hlast, -, hpoll⟩ := memRead_failed hread
  have hreads : ReadFrame s s2 := hframe.trans hlast
  have hstatus : s2.peek params.kbsr = 0x8000 := State.poll_failed hpoll
  exact ⟨_, hexec, {
    run := congrArg (fun pc => RunState.faulted (.ioFault r (pc - 1))) hreads.pc
    regs := hreads.reg
    cond := hreads.cond
    pc := hreads.pc
    memory := fun _ => rfl
    status := hstatus
    others := hreads.peek
    iob := rfl }⟩

theorem exec_load_of_done {w : Word} (hexec : exec i s = loadInto d ea s1) (hread : memRead ea s1 = .done w s2) :
    ∃ t, exec i s = .next t ∧ WritesOnly d w s2 t := by
  refine ⟨_, hexec.trans ?_, s2.setReg_writesOnly d w⟩
  simp only [loadInto, hread]

theorem exec_load_of_plain (hexec : exec i s = loadInto d ea s1) (hea : ea ≠ params.kbsr) :
    ∃ t, exec i s = .next t ∧ WritesOnly d (s1.peek ea) s1 t :=
  exec_load_of_done hexec (memRead_plain ea s1 hea)

theorem exec_load_of_failed {r : IOReport} (hframe : ReadFrame s s1) (hexec : exec i s = loadInto d ea s1)
    (hread : memRead ea s1 = .failed r s2) : ∃ t, exec i s = .next t ∧ FaultedIO r s s2 t := by
  refine exec_faultedIO hframe hread (hexec.trans ?_)
  simp only [loadInto, hread]

end

/-- R170: LD, LDR and LDI whose pointer read is plain are the load at their operand address. -/
theorem exec_of_operandAddress {i : Instr} {s : State} {d : Reg} {ea : Word}
    (h : operandAddress i s = some (d, ea)) : exec i s = loadInto d ea s := by
  cases i with
  | ld dr off => cases h; exact exec_ld_eq _ _ _
  | ldr dr base off => cases h; exact exec_ldr_eq _ _ _ _
  | ldi dr off =>
    obtain ⟨hpointer, heq⟩ := Option.ite_none_left_eq_some.mp h
    cases heq
    exact exec_ldi_of_done _ (memRead_plain _ s hpointer)
  | _ => cases h

/-! ### The statements -/

/-- Settles O25, one case per answer of the bridge to the one poll. -/
theorem loadOfStatusPolls : Obligations.LoadOfStatusPolls := by
  unfold Obligations.LoadOfStatusPolls
  intro i s d haddress
  have hload := exec_of_operandAddress haddress
  refine ⟨fun ks hkeys => ?_, fun ks b cs hkeys hinput => ?_, fun ks r cs hkeys hinput => ?_⟩
  · obtain ⟨t, hexec, hwrite⟩ := exec_load_of_done hload (memRead_noKey hkeys)
    obtain ⟨hzero, -, -⟩ := hwrite.flag
    exact ⟨t, hexec, hwrite.value, hzero.mpr rfl, hwrite.others, hwrite.pc, hwrite.run,
      (hwrite.memory _).trans (State.poke_peek_same _ _ _),
      fun a ha => (hwrite.memory a).trans (s.poke_peek_other _ _ a ha), hwrite.iob⟩
  · have hread := memRead_key hkeys hinput
    have hframe := (memRead_done hread).1
    obtain ⟨t, hexec, hwrite⟩ := exec_load_of_done hload hread
    obtain ⟨-, hnegative, -⟩ := hwrite.flag
    have hstatus : t.peek params.kbsr = 0x8000 :=
      ((hwrite.memory _).trans (State.poke_peek_other _ _ _ _ kbsr_ne_kbdr)).trans (State.poke_peek_same _ _ _)
    have hchar : t.peek params.kbdr = BitVec.ofNat 16 b.toNat :=
      ((hwrite.memory _).trans (State.poke_peek_same _ _ _)).trans (zext16_eq_ofNat b)
    exact ⟨t, hexec, hwrite.value, hnegative.mpr (by decide), hwrite.others, hwrite.pc, hwrite.run, hstatus, hchar,
      fun a hs hd => (hwrite.memory a).trans (hframe.peek a hs hd), hwrite.iob⟩
  · obtain ⟨t, hexec, hfault⟩ := exec_load_of_failed (.refl s) hload (memRead_fail hkeys hinput)
    exact ⟨t, hexec, hfault.run, hfault.regs, hfault.cond, hfault.pc, hfault.status,
      fun a ha => (hfault.memory a).trans (s.poke_peek_other _ _ a ha), hfault.iob⟩

/-- Settles O18: one load, by the outcome of its read. -/
theorem loadPcRelative : Obligations.LoadPcRelative := by
  unfold Obligations.LoadPcRelative
  intro s dr off
  have hload := exec_ld_eq dr off s
  exact ⟨exec_load_of_plain hload, fun _ _ => exec_load_of_done hload,
    fun _ _ => exec_load_of_failed (.refl s) hload⟩

/-- Settles O19, as O18 at the other address. -/
theorem loadBaseOffset : Obligations.LoadBaseOffset := by
  unfold Obligations.LoadBaseOffset
  intro s dr base off
  have hload := exec_ldr_eq dr base off s
  exact ⟨exec_load_of_plain hload, fun _ _ => exec_load_of_done hload,
    fun _ _ => exec_load_of_failed (.refl s) hload⟩

/-- Settles O20: behind a pointer read that answers it is a load on the state that read leaves. -/
theorem loadIndirect : Obligations.LoadIndirect := by
  unfold Obligations.LoadIndirect
  intro s dr off
  refine ⟨fun hpointer => exec_load_of_plain (exec_ldi_of_done dr (memRead_plain _ s hpointer)),
    fun ea s1 w s2 hpointer => exec_load_of_done (exec_ldi_of_done dr hpointer),
    fun r s1 hpointer => exec_faultedIO (.refl s) hpointer (exec_ldi_of_failed dr hpointer),
    fun ea s1 r s2 hpointer => ?_⟩
  exact exec_load_of_failed (memRead_done hpointer).1 (exec_ldi_of_done dr hpointer)

/-- Settles O21: the handler is one register write. -/
theorem leaGivesAddress : Obligations.LeaGivesAddress := by
  unfold Obligations.LeaGivesAddress
  exact fun s dr off => ⟨_, exec_lea_eq dr off s, s.setReg_writesOnly _ _⟩

/-- Settles O22: the handler is one plain store. -/
theorem storePcRelative : Obligations.StorePcRelative := by
  unfold Obligations.StorePcRelative
  exact fun s sr off => ⟨_, exec_st_eq sr off s, s.poke_storesOnly _ _⟩

/-- Settles O23: the handler is one plain store. -/
theorem storeBaseOffset : Obligations.StoreBaseOffset := by
  unfold Obligations.StoreBaseOffset
  exact fun s sr base off => ⟨_, exec_str_eq sr base off s, s.poke_storesOnly _ _⟩

/-- Settles O24: behind a pointer read that answers it is a plain store on the state that read leaves. -/
theorem storeIndirect : Obligations.StoreIndirect := by
  unfold Obligations.StoreIndirect
  intro s sr off
  refine ⟨fun hpointer => ?_, fun ea s1 hpointer => ?_, fun r s1 hpointer => ?_⟩
  · exact ⟨_, exec_sti_of_done sr (memRead_plain _ s hpointer), s.poke_storesOnly _ _⟩
  · exact ⟨_, exec_sti_of_done sr hpointer, s1.poke_storesOnly _ _⟩
  · exact exec_faultedIO (.refl s) hpointer (exec_sti_of_failed sr hpointer)

end Sys2Proof.Machine
end

section
/-! Proofs of the family `44_trap_io.md`, the routines: what GETC, IN, OUT, PUTS, PUTSP, HALT and an unlisted
vector do (R203 to R209), and that TRAP selects and links them (R200, R201). -/

namespace Sys2Proof.Machine

open Sys2Proof.Config (IOReport ReadResult Routine)
open Sys2Proof.Claims

/-! ### The link write under a routine that writes no register (R200, R202) -/

/-- A routine that keeps registers, PC, flag and memory leaves the link write as all that TRAP has done. -/
theorem CoreFrame.linked {s t : State} (hcore : CoreFrame (link s) t) (hmem : t.mem = s.mem) : Linked s t := by
  have hlink : WritesOnly .r7 s.pc s (link s) := s.setReg_writesOnly .r7 s.pc
  exact {
    link := (hcore.reg .r7).trans hlink.value
    flag := hcore.cond ▸ hlink.flag
    others := fun r hr => (hcore.reg r).trans (hlink.others r hr)
    pc := hcore.pc
    memory := peek_eq_of_mem_eq hmem }

/-! ### GETC and IN (R203, R206, R214) -/

/-- R31, D13: a zero-extended byte is never negative. -/
theorem flagOf_zext16 : ∀ b : Byte, flagOf (zext16 b) = if b = 0 then .z else .p := by decide

/-- `s` with the fixed answers of `read_char()` that are left after one of them was taken. -/
def State.withInput (s : State) (cs : List ReadResult) : State := { s with iob := { s.iob with input := cs } }

theorem State.readChar_of_input_cons {s : State} {c : ReadResult} {cs : List ReadResult} (h : s.iob.input = c :: cs) :
    s.readChar = some (c, s.withInput cs) := by
  simp only [State.readChar, h, State.withInput]

/-- What every TRAP that completes leaves of the registers, the PC and memory (R200, R202): R7 is linked, and R0 is
the only other register that may be written. -/
structure TrapFrame (s t : State) : Prop where
  link : t.reg .r7 = s.pc
  pc : t.pc = s.pc
  memory : SameMemory s t
  others : ∀ r, r ≠ .r7 → r ≠ .r0 → t.reg r = s.reg r

theorem trapFrame_of_linked {s t : State} (h : Linked s t) : TrapFrame s t :=
  ⟨h.link, h.pc, h.memory, fun r h7 _ => h.others r h7⟩

/-- What GETC and IN leave with a byte there, but for the bridge: the link write, and then R0 and its flag. -/
structure CharLoaded (b : Byte) (s t : State) : Prop extends TrapFrame s t where
  value : t.reg .r0 = BitVec.ofNat 16 b.toNat
  flag : t.cond = if b = 0 then .z else .p
  run : t.run = s.run

theorem setReg_r0_charLoaded {s u : State} (hcore : CoreFrame (link s) u) (hmem : u.mem = s.mem) (hrun : u.run = s.run)
    (b : Byte) : CharLoaded b s (u.setReg .r0 (zext16 b)) := by
  have hlinked := hcore.linked hmem
  exact {
    link := (u.setReg_reg_other .r0 _ .r7 (by decide)).trans hlinked.link
    pc := hlinked.pc
    memory := hlinked.memory
    others := fun r h7 h0 => (u.setReg_reg_other .r0 _ r h0).trans (hlinked.others r h7)
    value := (u.setReg_reg_same .r0 _).trans (zext16_eq_ofNat b)
    flag := flagOf_zext16 b
    run := hrun }

section
variable {s : State} {b : Byte} {r : IOReport} {cs : List ReadResult}

theorem exec_getc_byte (h : s.iob.input = .byte b :: cs) :
    ∃ t, exec .getc s = .next t ∧ CharLoaded b s t ∧ t.iob = { s.iob with input := cs } := by
  have hexec : exec .getc s = .next (((link s).withInput cs).setReg .r0 (zext16 b)) := by
    change routineGetc s (link s) = _
    simp only [routineGetc, State.readChar_of_input_cons (s := link s) h]
  exact ⟨_, hexec, setReg_r0_charLoaded (u := (link s).withInput cs) ⟨rfl, rfl, rfl⟩ rfl rfl b, rfl⟩

/-- The prompt goes out before the read and the byte behind it; each is flushed. -/
theorem exec_inEcho_byte (h : s.iob.input = .byte b :: cs) :
    ∃ t, exec .inEcho s = .next t ∧ CharLoaded b s t ∧ t.iob = { s.iob with
      input := cs
      output := s.iob.output ++ params.inPrompt ++ [b]
      flushed := (s.iob.output ++ params.inPrompt ++ [b]).length } := by
  have hexec : exec .inEcho s =
      .next ((((link s).promptOut.withInput cs).writeChars [b]).flush.setReg .r0 (zext16 b)) := by
    change routineIn s (link s) = _
    simp only [routineIn, State.readChar_of_input_cons (s := (link s).promptOut) h]
  exact ⟨_, hexec, setReg_r0_charLoaded (u := (((link s).promptOut.withInput cs).writeChars [b]).flush)
    ⟨rfl, rfl, rfl⟩ rfl rfl b, rfl⟩

theorem exec_getc_fail (h : s.iob.input = .fail r :: cs) :
    ∃ t, exec .getc s = .next t ∧ Linked s t ∧ t.run = .faulted (.ioFault r (s.pc - 1)) ∧
      t.iob = { s.iob with input := cs } := by
  have hexec : exec .getc s = raiseIO r ((link s).withInput cs) := by
    change routineGetc s (link s) = _
    simp only [routineGetc, State.readChar_of_input_cons (s := link s) h]
  exact ⟨_, hexec, CoreFrame.linked ⟨rfl, rfl, rfl⟩ rfl, rfl, rfl⟩

theorem exec_inEcho_fail (h : s.iob.input = .fail r :: cs) :
    ∃ t, exec .inEcho s = .next t ∧ Linked s t ∧ t.run = .faulted (.ioFault r (s.pc - 1)) ∧
      t.iob = { s.iob with
        input := cs
        output := s.iob.output ++ params.inPrompt
        flushed := (s.iob.output ++ params.inPrompt).length } := by
  have hexec : exec .inEcho s = raiseIO r ((link s).promptOut.withInput cs) := by
    change routineIn s (link s) = _
    simp only [routineIn, State.readChar_of_input_cons (s := (link s).promptOut) h]
  exact ⟨_, hexec, CoreFrame.linked ⟨rfl, rfl, rfl⟩ rfl, rfl, rfl⟩

end

/-- Settles O26: the byte taken, R0 is written over what the link write left. -/
theorem getcReadsCharacter : Obligations.GetcReadsCharacter := by
  unfold Obligations.GetcReadsCharacter
  intro s b cs hinput
  obtain ⟨t, hexec, h, hiob⟩ := exec_getc_byte hinput
  exact ⟨t, hexec, h.link, h.value, h.flag, h.others, h.pc, h.memory, h.run, hiob⟩

/-- Settles O27: as GETC, with the prompt and the echo on the bridge. -/
theorem inPromptsAndEchoes : Obligations.InPromptsAndEchoes := by
  unfold Obligations.InPromptsAndEchoes
  intro s b cs hinput
  obtain ⟨t, hexec, h, hiob⟩ := exec_inEcho_byte hinput
  rw [List.length_append, List.length_append, List.length_singleton] at hiob
  exact ⟨t, hexec, h.link, h.value, h.flag, h.others, h.pc, h.memory, h.run, hiob⟩

/-- Settles O29: the fault ends the run before R0 is written. -/
theorem inputTrapsFault : Obligations.InputTrapsFault := by
  unfold Obligations.InputTrapsFault
  intro s r cs hinput
  rw [← List.length_append]
  exact ⟨exec_getc_fail hinput, exec_inEcho_fail hinput⟩

/-! ### OUT, HALT and the unlisted vectors (R204, R208, R209) -/

theorem exec_out_eq (s : State) :
    exec .out s = .next ((link s).writeChars [BitVec.ofNat 8 (s.reg .r0).toNat]).flush := by
  rw [← link_r0]
  rfl

/-- Settles O30: one byte written and flushed after the link write. -/
theorem outWritesLowByte : Obligations.OutWritesLowByte := by
  unfold Obligations.OutWritesLowByte
  intro s
  refine ⟨_, exec_out_eq s, CoreFrame.linked ⟨rfl, rfl, rfl⟩ rfl, rfl, ?_⟩
  rw [State.flush_iob, State.writeChars_iob, link_iob, List.length_append, List.length_singleton]

theorem exec_halt_eq (s : State) :
    exec .halt s = .next { ((link s).writeChars params.haltMessage).flush with run := .halted } := rfl

/-- Settles O35: in HALTED no step is enabled. -/
theorem haltStopsTheLoop : Obligations.HaltStopsTheLoop := by
  unfold Obligations.HaltStopsTheLoop
  intro s
  exact ⟨_, exec_halt_eq s, CoreFrame.linked ⟨rfl, rfl, rfl⟩ rfl, rfl, rfl, noStepUnlessRunning _ nofun⟩

theorem exec_trapUnlisted_eq (v : Byte) (s : State) :
    exec (.trapUnlisted v) s = .next { link s with run := .faulted (.unknownTrapVector v (s.pc - 1)) } := rfl

/-- Settles O36: under either policy nothing but the run state changes after the link write. -/
theorem unlistedVectorPolicies : Obligations.UnlistedVectorPolicies := by
  unfold Obligations.UnlistedVectorPolicies
  intro s v
  exact ⟨⟨_, exec_trapUnlisted_eq v s, CoreFrame.linked ⟨rfl, rfl, rfl⟩ rfl, rfl, rfl⟩,
    ⟨_, rfl, CoreFrame.linked ⟨rfl, rfl, rfl⟩ rfl, rfl, rfl⟩⟩

/-! ### PUTS and PUTSP off KBSR (R205, R207) -/

/-- Two rounds of memory are fuel enough for the whole string. -/
theorem exec_string_of_stringAt {i : Instr} (hi : i = .puts ∨ i = .putsp) {s : State} {ws : List Word}
    (h : StringAt s (s.reg .r0) ws) :
    exec i s = .next ((link s).writeChars (ws.flatMap (stringBytes i))).flush := by
  have hfuel : ws.length < scanFuel (link s) :=
    Nat.lt_of_lt_of_le h.1 (Nat.le_trans (by decide) (two_rounds_le_scanFuel (link s)))
  have hlinked : StringAt (link s) ((link s).reg .r0) ws := by rw [link_r0]; exact h
  exact exec_string_of_ended hi (scan_stringAt (stringBytes i) hlinked hfuel)

theorem stringBytes_puts (w : Word) : stringBytes .puts w = [BitVec.ofNat 8 w.toNat] := (putsBytes_eq w).symm

theorem stringBytes_putsp (w : Word) : stringBytes .putsp w =
    if w.toNat < 256 then [BitVec.ofNat 8 w.toNat] else [BitVec.ofNat 8 w.toNat, BitVec.ofNat 8 (w.toNat / 256)] := by
  simp only [← putspBytes_eq, putspBytes, extractHigh_eq_zero_iff]
  rw [extractLow_eq, extractHigh_eq]

/-- Settles O31: one byte for each word of the string. -/
theorem putsWritesString : Obligations.PutsWritesString := by
  unfold Obligations.PutsWritesString
  intro s ws hstring
  refine ⟨_, exec_string_of_stringAt (.inl rfl) hstring, CoreFrame.linked ⟨rfl, rfl, rfl⟩ rfl, rfl, ?_⟩
  have hbytes : ws.flatMap (stringBytes .puts) = ws.map (fun w => BitVec.ofNat 8 w.toNat) := by
    rw [List.map_eq_flatMap, funext stringBytes_puts]
  rw [State.flush_iob, State.writeChars_iob, link_iob, hbytes, List.length_append, List.length_map]

/-- Settles O32: one byte or two for each word of the string. -/
theorem putspWritesPackedString : Obligations.PutspWritesPackedString := by
  unfold Obligations.PutspWritesPackedString
  intro s ws hstring
  rw [← funext stringBytes_putsp]
  exact ⟨_, exec_string_of_stringAt (.inr rfl) hstring, CoreFrame.linked ⟨rfl, rfl, rfl⟩ rfl, rfl, rfl, rfl, rfl,
    rfl⟩

/-! ### TRAP selects its routine and links it (R200, R201) -/

theorem routineOf_eq_none {v : Byte} (h : ∀ r : Routine, v ≠ params.trapvec r) : routineOf v = none :=
  Option.eq_none_iff_forall_ne_some.mpr fun r hr => h r (trapvec_of_routineOf hr).symm

/-- The generic row runs the routine that the refining row names. -/
theorem exec_trap_eq_exec_refineTrap (v : Byte) (s : State) : exec (.trap v) s = exec (refineTrap v) s := by
  change routine v s (link s) = _
  unfold routine refineTrap
  cases routineOf v with
  | none => rfl
  | some r => cases r <;> rfl

/-- Settles O37: the rows by the inverse of TRAPVEC. -/
theorem trapSelectsItsRoutine : Obligations.TrapSelectsItsRoutine := by
  unfold Obligations.TrapSelectsItsRoutine
  refine fun v s => ⟨exec_trap_eq_exec_refineTrap v s, ?_, fun hv => refineTrap_unlisted (routineOf_eq_none hv)⟩
  rintro r rfl
  simp only [refineTrap, routineOf_trapvec]
  cases r <;> rfl

section
variable {s : State}

theorem exec_input_trapFrame {i : Instr} (hi : i = .getc ∨ i = .inEcho) (h : s.iob.input ≠ []) :
    ∃ t, exec i s = .next t ∧ TrapFrame s t := by
  obtain ⟨answer, cs, hinput⟩ := List.exists_cons_of_ne_nil h
  cases answer with
  | byte b =>
    obtain ⟨t, hexec, hloaded⟩ : ∃ t, exec i s = .next t ∧ CharLoaded b s t := by
      rcases hi with rfl | rfl
      · exact (exec_getc_byte hinput).imp fun _ => And.imp_right And.left
      · exact (exec_inEcho_byte hinput).imp fun _ => And.imp_right And.left
    exact ⟨t, hexec, hloaded.toTrapFrame⟩
  | fail r =>
    obtain ⟨t, hexec, hlinked⟩ : ∃ t, exec i s = .next t ∧ Linked s t := by
      rcases hi with rfl | rfl
      · exact (exec_getc_fail hinput).imp fun _ => And.imp_right And.left
      · exact (exec_inEcho_fail hinput).imp fun _ => And.imp_right And.left
    exact ⟨t, hexec, trapFrame_of_linked hlinked⟩

theorem stringAt_nil {a : Word} (hplain : a ≠ params.kbsr) (hzero : s.peek a = 0) : StringAt s a [] := by
  have ha : a + BitVec.ofNat 16 0 = a := add_ofNat_zero a
  refine ⟨by decide, nofun, nofun, (congrArg s.peek ha).trans hzero, fun k hk => ?_⟩
  rwa [Nat.le_zero.mp hk, ha]

theorem exec_string_trapFrame {i : Instr} (hi : i = .puts ∨ i = .putsp)
    (h : s.reg .r0 ≠ params.kbsr ∧ s.peek (s.reg .r0) = 0) : ∃ t, exec i s = .next t ∧ TrapFrame s t :=
  ⟨_, exec_string_of_stringAt hi (stringAt_nil h.1 h.2),
    trapFrame_of_linked (CoreFrame.linked ⟨rfl, rfl, rfl⟩ rfl)⟩

end

/-- Settles O38: the generic row is the row of its vector, and each row links. -/
theorem trapLinksForEveryVector : Obligations.TrapLinksForEveryVector := by
  unfold Obligations.TrapLinksForEveryVector
  intro v s hinput hstring
  suffices h : ∃ t, exec (refineTrap v) s = .next t ∧ TrapFrame s t by
    obtain ⟨t, hexec, hframe⟩ := h
    exact ⟨t, (exec_trap_eq_exec_refineTrap v s).trans hexec, hframe.link, hframe.pc, hframe.memory, hframe.others⟩
  cases hv : routineOf v with
  | none =>
    rw [refineTrap_unlisted hv]
    exact ⟨_, exec_trapUnlisted_eq v s, trapFrame_of_linked (CoreFrame.linked ⟨rfl, rfl, rfl⟩ rfl)⟩
  | some r =>
    obtain rfl := trapvec_of_routineOf hv
    cases r with
    | getc => exact exec_input_trapFrame (.inl rfl) (hinput (.inl rfl))
    | inEcho => exact exec_input_trapFrame (.inr rfl) (hinput (.inr rfl))
    | puts => exact exec_string_trapFrame (.inl rfl) (hstring (.inl rfl))
    | putsp => exact exec_string_trapFrame (.inr rfl) (hstring (.inr rfl))
    | out => exact ⟨_, exec_out_eq s, trapFrame_of_linked (CoreFrame.linked ⟨rfl, rfl, rfl⟩ rfl)⟩
    | halt => exact ⟨_, exec_halt_eq s, trapFrame_of_linked (CoreFrame.linked ⟨rfl, rfl, rfl⟩ rfl)⟩

end Sys2Proof.Machine
end

section
/-! Proofs of the family `44_trap_io.md`, the order of input and output (R210, R211): every handler only adds to
the output and takes answers from the front, and a handler that is no TRAP writes nothing. -/

namespace Sys2Proof.Machine

open Sys2Proof.Config (ReadResult TrapPolicy)
open Sys2Proof.Claims

/-- From `b` to `c` the bridge has at most been written to at the end and read from at the front. -/
structure BridgeOrder (b c : Bridge) : Prop where
  output : b.output <+: c.output
  input : c.input <:+ b.input
  keys : c.keys <:+ b.keys

/-- From `b` to `c` the bridge has at most been read from. -/
structure BridgeReads (b c : Bridge) : Prop where
  output : c.output = b.output
  input : c.input <:+ b.input
  keys : c.keys <:+ b.keys

section
variable {b c d : Bridge}

theorem BridgeReads.refl (b : Bridge) : BridgeReads b b := ⟨rfl, List.suffix_refl _, List.suffix_refl _⟩

theorem BridgeReads.order (h : BridgeReads b c) : BridgeOrder b c :=
  ⟨h.output ▸ List.prefix_refl _, h.input, h.keys⟩

theorem BridgeOrder.trans (h : BridgeOrder b c) (h' : BridgeOrder c d) : BridgeOrder b d :=
  ⟨h.output.trans h'.output, h'.input.trans h.input, h'.keys.trans h.keys⟩

theorem BridgeReads.trans (h : BridgeReads b c) (h' : BridgeReads c d) : BridgeReads b d :=
  ⟨h'.output.trans h.output, h'.input.trans h.input, h'.keys.trans h.keys⟩

end

theorem ReadFrame.bridge {s t : State} (f : ReadFrame s t) : BridgeReads s.iob t.iob := ⟨f.output, f.input, f.keys⟩

theorem State.readChar_bridge {s t : State} {c : ReadResult} (h : s.readChar = some (c, t)) :
    BridgeReads s.iob t.iob := by
  obtain ⟨_, _, hinput, hsome⟩ | ⟨-, hnone⟩ := s.readChar_cases
  · cases hsome.symm.trans h; exact ⟨rfl, hinput ▸ List.suffix_cons _ _, List.suffix_refl _⟩
  · cases hnone.symm.trans h

theorem raise_iob {f : FaultRecord} {s t : State} (h : raise f s = .next t) : t.iob = s.iob := by
  cases h; rfl

/-! ### The handlers that are no TRAP -/

theorem loadInto_bridge {dr : Reg} {ea : Word} {s t : State} (h : loadInto dr ea s = .next t) :
    BridgeReads s.iob t.iob := by
  obtain ⟨w, s1, hread, hnext⟩ | ⟨r, s1, hread, hnext⟩ := loadInto_cases dr ea s
  · cases hnext.symm.trans h; exact (memRead_done hread).1.bridge
  · cases hnext.symm.trans h; exact (memRead_failed hread).1.bridge

/-- LDI: a load behind the pointer read, or the fault of that read. -/
theorem execLdi_bridge {dr : Reg} {off : BitVec 9} {s t : State} (h : execLdi dr off s = .next t) :
    BridgeReads s.iob t.iob := by
  unfold execLdi at h
  cases hread : memRead (pcRelative off s) s with
  | done ea s1 => rw [hread] at h; exact (memRead_done hread).1.bridge.trans (loadInto_bridge h)
  | failed r s1 => rw [hread] at h; rw [raise_iob h]; exact (memRead_failed hread).1.bridge

/-- STI: a store behind the pointer read, or the fault of that read. -/
theorem execSti_bridge {sr : Reg} {off : BitVec 9} {s t : State} (h : execSti sr off s = .next t) :
    BridgeReads s.iob t.iob := by
  unfold execSti at h
  cases hread : memRead (pcRelative off s) s with
  | done ea s1 => rw [hread] at h; cases h; exact (memRead_done hread).1.bridge
  | failed r s1 => rw [hread] at h; rw [raise_iob h]; exact (memRead_failed hread).1.bridge

theorem exec_bridge_of_not_trap {i : Instr} {s t : State} (hi : isTrap i = false) (h : exec i s = .next t) :
    BridgeReads s.iob t.iob := by
  cases i with
  | br n z p off => cases (exec_br_eq n z p off s).symm.trans h; exact .refl _
  | addReg | addImm | andReg | andImm | notReg | lea | jmp | jsr | jsrr | st | str => cases h; exact .refl _
  | ld | ldr => exact loadInto_bridge h
  | ldi => exact execLdi_bridge h
  | sti => exact execSti_bridge h
  | rti | res => rw [raise_iob h]; exact .refl _
  | _ => cases hi

/-! ### The rows of TRAP

The link write is no business of the bridge, so each routine starts from the bridge before the TRAP. -/

/-- What is written goes behind what was written before, and a flush is only a mark. -/
theorem State.writeChars_flush_bridge (s : State) (bs : List Byte) : BridgeOrder s.iob (s.writeChars bs).flush.iob :=
  ⟨List.prefix_append _ _, List.suffix_refl _, List.suffix_refl _⟩

theorem writeString_bridge {bytes : Word → List Byte} {s t : State} (h : writeString bytes s = .next t) :
    BridgeOrder s.iob t.iob := by
  obtain ⟨u, hu, hnext⟩ | ⟨r, u, hu, hnext⟩ | hhang := writeString_cases bytes s
  · cases hnext.symm.trans h; exact ⟨hu.output, hu.input, hu.keys⟩
  · cases hnext.symm.trans h; exact ⟨hu.output, hu.input, hu.keys⟩
  · cases hhang.symm.trans h

/-- R203: a character, a failing read, or none yet, and the step is held. -/
theorem execGetc_bridge {s t : State} (h : execGetc s = .next t) : BridgeReads s.iob t.iob := by
  unfold execGetc routineGetc at h
  split at h
  · next c s1 hread =>
    cases h
    have htaken : BridgeReads (link s).iob s1.iob := State.readChar_bridge hread
    exact htaken
  · next hread =>
    rw [raise_iob h, ← link_iob s]
    exact State.readChar_bridge hread
  · cases h; exact .refl _

/-- R206: as for GETC, with the prompt before the read and the echo behind it. -/
theorem execIn_bridge {s t : State} (h : execIn s = .next t) : BridgeOrder s.iob t.iob := by
  have hprompt : BridgeOrder s.iob (link s).promptOut.iob := (link s).writeChars_flush_bridge params.inPrompt
  unfold execIn routineIn at h
  split at h
  · next c s1 hread =>
    cases h
    exact (hprompt.trans (State.readChar_bridge hread).order).trans (s1.writeChars_flush_bridge [c])
  · next hread => rw [raise_iob h]; exact hprompt.trans (State.readChar_bridge hread).order
  · cases h; exact (BridgeReads.refl _).order

theorem routineUnlisted_iob (policy : TrapPolicy) (v : Byte) {s t : State}
    (h : routineUnlisted policy v s = .next t) : t.iob = s.iob := by
  cases policy with
  | fault => exact raise_iob h
  | nop => cases h; rfl

theorem exec_bridge {i : Instr} {s t : State} (hwf : i.wellFormed = true) (h : exec i s = .next t) :
    BridgeOrder s.iob t.iob := by
  cases hi : isTrap i with
  | false => exact (exec_bridge_of_not_trap hi h).order
  | true =>
    cases i with
    | getc => exact (execGetc_bridge h).order
    | inEcho => exact execIn_bridge h
    | out | halt => cases h; exact (link s).writeChars_flush_bridge _
    | puts | putsp => exact writeString_bridge (s := link s) h
    | trapUnlisted v =>
      rw [routineUnlisted_iob params.unknownTrapPolicy v h, link_iob]
      exact (BridgeReads.refl _).order
    | trap => cases hwf
    | _ => cases hi

/-- Settles O51: the fetch only reads from the bridge; the handler keeps the order, and writes only as a TRAP. -/
theorem inputAndOutputKeepOrder : Obligations.InputAndOutputKeepOrder := by
  unfold Obligations.InputAndOutputKeepOrder
  intro s t hstep
  obtain ⟨-, ⟨ir, s1, hfetch, hread, hexec⟩ | ⟨r, s1, -, hread, rfl⟩⟩ := step_cases hstep
  · have hfetched : BridgeReads s.iob s1.advance.iob := hread.bridge
    have horder := hfetched.order.trans (exec_bridge (wellFormed_decode ir) hexec)
    refine ⟨horder.output, horder.input, horder.keys, fun hwrote => ⟨ir, s1, hfetch, ?_⟩⟩
    by_contra htrap
    exact hwrote (hfetched.trans (exec_bridge_of_not_trap (Bool.eq_false_iff.mpr htrap) hexec)).output
  · exact ⟨hread.bridge.order.output, hread.input, hread.keys, fun hwrote => absurd hread.output hwrote⟩

end Sys2Proof.Machine
end

section
/-! Proofs of the family `44_trap_io.md`, the end and the hang of a string (R205, R261): the bound of the scan is
exact. A scan polls once in each round of memory; a round that nothing ends has its poll answered by a key and a
character other than 0x00, which uses up an answer of the budget unless no answer to come can be another. -/

namespace Sys2Proof.Machine

open Sys2Proof.Config
open Sys2Proof.Claims

/-! ### The scan and `NothingEnds` -/

theorem nothingEnds_mono {m n : Nat} {a : Word} {s : State} (h : NothingEnds n a s) (hmn : m ≤ n) :
    NothingEnds m a s := by
  induction m generalizing n a s with
  | zero => trivial
  | succ m ih =>
    obtain ⟨n, rfl⟩ := Nat.exists_eq_succ_of_ne_zero (Nat.ne_zero_of_lt hmn)
    obtain ⟨w, t, hread, hw, hrest⟩ := h
    exact ⟨w, t, hread, hw, ih hrest (Nat.le_of_succ_le_succ hmn)⟩

/-- What is read, and so whether anything ends, depends on memory and the bridge's answers only. -/
theorem nothingEnds_of_sameReads {n : Nat} {a : Word} {s t : State} (h : NothingEnds n a s) (hst : SameReads s t) :
    NothingEnds n a t := by
  induction n generalizing a s t with
  | zero => trivial
  | succ n ih =>
    obtain ⟨w, s', hread, hw, hrest⟩ := h
    obtain ⟨t', hread', hst'⟩ := memRead_sameReads hst hread
    exact ⟨w, t', hread', hw, ih hrest hst'⟩

theorem SameReads.symm {s t : State} (h : SameReads s t) : SameReads t s :=
  ⟨h.mem.symm, h.keys.symm, h.input.symm, h.keyCursor.symm, h.charCursor.symm⟩

theorem nothingEnds_congr {n : Nat} {a : Word} {s t : State} (h : SameReads s t) :
    NothingEnds n a s ↔ NothingEnds n a t :=
  ⟨fun hs => nothingEnds_of_sameReads hs h, fun ht => nothingEnds_of_sameReads ht h.symm⟩

/-- The output is no part of what is read. -/
theorem writeChars_sameReads (s : State) (bs : List Byte) : SameReads (s.writeChars bs) s := ⟨rfl, rfl, rfl, rfl, rfl⟩

/-- Nor are the registers and the flag. -/
theorem link_sameReads (s : State) : SameReads (link s) s := ⟨rfl, rfl, rfl, rfl, rfl⟩

theorem nothingEnds_succ_iff {n : Nat} {a w : Word} {s t : State} (hread : memRead a s = .done w t) :
    NothingEnds (n + 1) a s ↔ w ≠ 0 ∧ NothingEnds n (a + 1) t := by
  constructor
  · rintro ⟨w', t', hread', hrest⟩
    cases hread.symm.trans hread'
    exact hrest
  · exact fun hrest => ⟨w, t, hread, hrest⟩

theorem not_nothingEnds_of_failed {n : Nat} {a : Word} {s t : State} {r : IOReport}
    (hread : memRead a s = .failed r t) : ¬ NothingEnds (n + 1) a s := by
  rintro ⟨w, t', hread', -⟩
  cases hread.symm.trans hread'

theorem scan_eq_unended_iff (bytes : Word → List Byte) (n : Nat) (a : Word) (s : State) :
    scan bytes n a s = .unended ↔ NothingEnds n a s := by
  induction n generalizing a s with
  | zero => exact iff_of_true rfl trivial
  | succ n ih =>
    cases hread : memRead a s with
    | failed r s1 => rw [scan_succ_of_failed hread]; exact iff_of_false nofun (not_nothingEnds_of_failed hread)
    | done w s1 =>
      rw [nothingEnds_succ_iff hread]
      by_cases hw : w = 0
      · subst hw
        rw [scan_succ_of_zero hread]
        exact iff_of_false nofun fun h => h.1 rfl
      · rw [scan_succ_of_done hread hw, ih, nothingEnds_congr (writeChars_sameReads s1 _), and_iff_right hw]

theorem writeString_eq_hang_iff (bytes : Word → List Byte) (s : State) :
    writeString bytes s = .fault .stringHang ↔ NothingEnds (scanFuel s) (s.reg .r0) s := by
  rw [← scan_eq_unended_iff bytes]
  unfold writeString
  cases scan bytes (scanFuel s) (s.reg .r0) s with
  | ended t => exact iff_of_false nofun nofun
  | failed r t => exact iff_of_false nofun nofun
  | unended => exact iff_of_true rfl rfl

/-! ### Reads off KBSR, and a round of memory -/

/-- Reads off KBSR leave the state, so they go on exactly over words that are not zero. -/
theorem nothingEnds_add_iff {m n : Nat} {a : Word} {s : State} (h : ∀ k < m, a + BitVec.ofNat 16 k ≠ params.kbsr) :
    NothingEnds (m + n) a s ↔
      (∀ k < m, s.peek (a + BitVec.ofNat 16 k) ≠ 0) ∧ NothingEnds n (a + BitVec.ofNat 16 m) s := by
  induction m generalizing a with
  | zero => rw [add_ofNat_zero, Nat.zero_add]; exact (and_iff_right nofun).symm
  | succ m ih =>
    have hread : memRead a s = .done (s.peek a) s := memRead_plain a s (add_ofNat_zero a ▸ h 0 (Nat.succ_pos m))
    have htail : ∀ k < m, a + 1 + BitVec.ofNat 16 k ≠ params.kbsr := fun k hk =>
      add_ofNat_succ a k ▸ h (k + 1) (Nat.succ_lt_succ hk)
    have hhead : NothingEnds (m + 1 + n) a s ↔ s.peek a ≠ 0 ∧ NothingEnds (m + n) (a + 1) s := by
      rw [Nat.add_right_comm, nothingEnds_succ_iff hread]
    rw [hhead, ih htail, ← add_ofNat_succ, Nat.forall_lt_succ_left, ← and_assoc, add_ofNat_zero]
    simp only [add_ofNat_succ]

/-- The reads from `a` up to KBSR are off it. -/
theorem add_ofNat_ne_of_lt_dist {a b : Word} {k : Nat} (h : k < (b - a).toNat) : a + BitVec.ofNat 16 k ≠ b := by
  rintro rfl
  rw [BitVec.add_comm, BitVec.add_sub_cancel, BitVec.toNat_ofNat] at h
  exact absurd h (Nat.not_lt_of_ge (Nat.mod_le _ _))

theorem add_ofNat_dist (a b : Word) : a + BitVec.ofNat 16 (b - a).toNat = b := by
  rw [BitVec.ofNat_toNat, BitVec.setWidth_eq, BitVec.add_comm, BitVec.sub_add_cancel]

/-- From `a` the reads up to KBSR, none where `a` is KBSR. -/
theorem nothingEnds_dist_add_iff (a : Word) (n : Nat) (s : State) :
    NothingEnds ((params.kbsr - a).toNat + n) a s ↔
      (∀ k < (params.kbsr - a).toNat, s.peek (a + BitVec.ofNat 16 k) ≠ 0) ∧ NothingEnds n params.kbsr s := by
  rw [nothingEnds_add_iff fun k => add_ofNat_ne_of_lt_dist, add_ofNat_dist]

/-- One round of reads that nothing ends, from KBSR in `s` to KBSR in `t`: the poll gives a word that is not zero,
and it leaves no other word zero. -/
structure Round (s t : State) : Prop where
  read : ∃ w, memRead params.kbsr s = .done w t ∧ w ≠ 0
  words : ∀ a, a ≠ params.kbsr → t.peek a ≠ 0

/-- The addresses behind KBSR, as far as KBSR again, are all the other ones. -/
theorem forall_behind_kbsr_iff (p : Word → Prop) :
    (∀ k < (params.kbsr - (params.kbsr + 1)).toNat, p (params.kbsr + 1 + BitVec.ofNat 16 k)) ↔
      ∀ a, a ≠ params.kbsr → p a := by
  refine ⟨fun h a ha => ?_, fun h k hk => h _ (add_ofNat_ne_of_lt_dist hk)⟩
  have hlast : (params.kbsr - (params.kbsr + 1)).toNat = 65535 := by decide
  have hne : (a - (params.kbsr + 1)).toNat ≠ 65535 := fun he => ha <| by
    rw [← add_ofNat_dist (params.kbsr + 1) a, he]
    decide
  have hlt := (a - (params.kbsr + 1)).isLt
  exact add_ofNat_dist (params.kbsr + 1) a ▸ h _ (by omega)

theorem nothingEnds_round_iff (n : Nat) (s : State) :
    NothingEnds (65536 + n) params.kbsr s ↔ ∃ t, Round s t ∧ NothingEnds n params.kbsr t := by
  have hround : 65536 + n = (params.kbsr - (params.kbsr + 1)).toNat + n + 1 := by
    rw [show (params.kbsr - (params.kbsr + 1)).toNat = 65535 by decide]
    omega
  rw [hround]
  constructor
  · rintro ⟨w, t, hread, hw, hrest⟩
    obtain ⟨hwords, hnext⟩ := (nothingEnds_dist_add_iff _ n t).mp hrest
    exact ⟨t, ⟨⟨w, hread, hw⟩, (forall_behind_kbsr_iff (t.peek · ≠ 0)).mp hwords⟩, hnext⟩
  · rintro ⟨t, ⟨⟨w, hread, hw⟩, hwords⟩, hnext⟩
    exact ⟨w, t, hread, hw,
      (nothingEnds_dist_add_iff _ n t).mpr ⟨(forall_behind_kbsr_iff (t.peek · ≠ 0)).mpr hwords, hnext⟩⟩

/-! ### What a round uses up of the answers to come

The answers to one question are a list of fixed ones, and behind it a cursor into runs of free ones. -/

/-- How many answers can come before the run is over, where it ever is: one summand of `pollBudget`. -/
def answersLeft {α : Type} (runs : Nat → Option Nat) (fixed : List α) (c : FreeCursor) : Nat :=
  fixed.length + (c.left runs).getD 0

/-- Every answer to come is a plain one. -/
def Endless {α : Type} (runs : Nat → Option Nat) (fixed : List α) (c : FreeCursor) : Prop :=
  fixed = [] ∧ c.left runs = none

theorem pollBudget_eq (s : State) : pollBudget s =
    answersLeft freeKeyRun s.iob.keys s.iob.keyCursor + answersLeft freeCharRun s.iob.input s.iob.charCursor := rfl

/-- From one place in the answers to the next: one less is left, or they are endless and stay so. -/
def Spends {α : Type} (runs : Nat → Option Nat) (fixed : List α) (c : FreeCursor) (fixed' : List α)
    (c' : FreeCursor) : Prop :=
  answersLeft runs fixed' c' < answersLeft runs fixed c ∨ (Endless runs fixed c ∧ Endless runs fixed' c')

section
variable {α : Type} {runs : Nat → Option Nat} {fixed fixed' : List α} {c c' : FreeCursor}

theorem answersLeft_of_endless (h : Endless runs fixed c) : answersLeft runs fixed c = 0 := by
  simp [answersLeft, h.1, h.2]

theorem spends_fixed (x : α) : Spends runs (x :: fixed) c fixed c :=
  .inl (Nat.add_lt_add_right (Nat.lt_succ_self _) _)

theorem spends_free (h : c.plain runs = true) : Spends runs ([] : List α) c [] (c.next runs) := by
  have hleft := (FreeCursor.plain_iff runs c).mp h
  have hnext := FreeCursor.left_next h
  cases hc : c.left runs with
  | none => exact .inr ⟨⟨rfl, hc⟩, ⟨rfl, by rw [hnext, hc]; rfl⟩⟩
  | some n =>
    have hn : n ≠ 0 := fun h0 => hleft (h0 ▸ hc)
    refine .inl ?_
    simp only [answersLeft, hnext, hc, Option.map_some, Option.getD_some]
    omega

end

/-- A key is there: an answer of `key_available()` is spent, and none of `read_char()`. -/
theorem State.askKey_spends {s t : State} (h : s.askKey = (true, t)) :
    Spends freeKeyRun s.iob.keys s.iob.keyCursor t.iob.keys t.iob.keyCursor ∧
      t.iob.input = s.iob.input ∧ t.iob.charCursor = s.iob.charCursor := by
  obtain ⟨k, ks, hkeys, hask⟩ | ⟨hkeys, hask⟩ := s.askKey_cases <;> rw [hkeys]
  · cases hask.symm.trans h
    exact ⟨spends_fixed true, rfl, rfl⟩
  · obtain ⟨hplain, rfl⟩ := Prod.mk.inj (hask.symm.trans h)
    dsimp only
    rw [hkeys]
    exact ⟨spends_free hplain, rfl, rfl⟩

/-- A character other than 0x00 comes: an answer of `read_char()` is spent, and none of `key_available()`. -/
theorem State.pollChar_spends {s t : State} {b : Byte} (h : s.pollChar = (.byte b, t)) (hb : b ≠ 0) :
    Spends freeCharRun s.iob.input s.iob.charCursor t.iob.input t.iob.charCursor ∧
      t.iob.keys = s.iob.keys ∧ t.iob.keyCursor = s.iob.keyCursor := by
  obtain ⟨c, cs, hinput, hpoll⟩ | ⟨hinput, hpoll⟩ := s.pollChar_cases <;> rw [hinput]
  · cases hpoll.symm.trans h
    exact ⟨spends_fixed (ReadResult.byte b), rfl, rfl⟩
  · obtain ⟨hchar, rfl⟩ := Prod.mk.inj (hpoll.symm.trans h)
    have hplain : s.iob.charCursor.plain freeCharRun = true := by
      by_contra hended
      obtain hzero | ⟨r, hfail⟩ := FreeCursor.char_end (Bool.eq_false_iff.mpr hended)
      · cases hzero.symm.trans hchar; exact hb rfl
      · cases hfail.symm.trans hchar
    dsimp only
    rw [hinput]
    exact ⟨spends_free hplain, rfl, rfl⟩

/-- A read of KBSR that gives a word other than zero has found a key and stored its character. -/
theorem memRead_kbsr_key {s t : State} {w : Word} (h : memRead params.kbsr s = .done w t) (hw : w ≠ 0) :
    ∃ s1 s2 b, s.askKey = (true, s1) ∧ (s1.poke params.kbsr 0x8000).pollChar = (.byte b, s2) ∧
      t = s2.poke params.kbdr (zext16 b) := by
  rw [memRead_kbsr, State.poll] at h
  cases hask : s.askKey with
  | mk key s1 =>
  cases key with
  | false =>
    simp only [hask] at h
    cases h
    exact absurd (s1.poke_peek_same _ _) hw
  | true =>
    cases hchar : (s1.poke params.kbsr 0x8000).pollChar with
    | mk answer s2 =>
    cases answer with
    | byte b =>
      simp only [hask, hchar] at h
      cases h
      exact ⟨s1, s2, b, rfl, hchar, rfl⟩
    | fail r =>
      simp only [hask, hchar] at h
      cases h

/-- The character of the poll is not 0x00, for then KBDR would end the string. -/
theorem Round.spends {s t : State} (h : Round s t) :
    Spends freeKeyRun s.iob.keys s.iob.keyCursor t.iob.keys t.iob.keyCursor ∧
      Spends freeCharRun s.iob.input s.iob.charCursor t.iob.input t.iob.charCursor := by
  obtain ⟨⟨w, hread, hw⟩, hwords⟩ := h
  obtain ⟨s1, s2, b, hask, hchar, rfl⟩ := memRead_kbsr_key hread hw
  have hb : b ≠ 0 := by
    rintro rfl
    exact hwords params.kbdr kbsr_ne_kbdr.symm (s2.poke_peek_same _ _)
  obtain ⟨hkeys, hinput1, hcursor1⟩ := State.askKey_spends hask
  obtain ⟨hchars, hkeys2, hcursor2⟩ := State.pollChar_spends hchar hb
  rw [State.poke_iob] at hkeys2 hcursor2 hchars
  rw [State.poke_iob, hkeys2, hcursor2, ← hinput1, ← hcursor1]
  exact ⟨hkeys, hchars⟩

/-! ### Endless answers -/

/-- Every poll to come finds a key and a character other than 0x00. -/
def Steady (s : State) : Prop :=
  Endless freeKeyRun s.iob.keys s.iob.keyCursor ∧ Endless freeCharRun s.iob.input s.iob.charCursor

theorem Round.budget_lt_or_steady {s t : State} (h : Round s t) : pollBudget t < pollBudget s ∨ Steady s := by
  rw [pollBudget_eq, pollBudget_eq]
  obtain ⟨hkeys | ⟨hkeys, hkeys'⟩, hchars | ⟨hchars, hchars'⟩⟩ := h.spends
  · exact .inl (Nat.add_lt_add hkeys hchars)
  · rw [answersLeft_of_endless hchars, answersLeft_of_endless hchars']
    exact .inl hkeys
  · rw [answersLeft_of_endless hkeys, answersLeft_of_endless hkeys', Nat.zero_add, Nat.zero_add]
    exact .inl hchars
  · exact .inr ⟨hkeys, hchars⟩

theorem plain_of_endless {α : Type} {runs : Nat → Option Nat} {fixed : List α} {c : FreeCursor}
    (h : Endless runs fixed c) : c.plain runs = true :=
  (FreeCursor.plain_iff runs c).mpr (h.2 ▸ nofun)

theorem endless_next {α : Type} {runs : Nat → Option Nat} {fixed : List α} {c : FreeCursor}
    (h : Endless runs fixed c) : Endless runs fixed (c.next runs) :=
  ⟨h.1, by rw [FreeCursor.left_next (plain_of_endless h), h.2]; rfl⟩

theorem zext16_ne_zero {b : Byte} (hb : b ≠ 0) : zext16 b ≠ 0 := by
  unfold zext16
  bv_omega

/-- With endless answers a round passes, where no word but the device words is zero, and the next is like it. -/
theorem exists_round_of_steady {s : State} (h : Steady s)
    (hwords : ∀ a, a ≠ params.kbsr → a ≠ params.kbdr → s.peek a ≠ 0) : ∃ t, Round s t ∧ Steady t := by
  obtain ⟨hkeys, hchars⟩ := h
  obtain ⟨b, hchar, hb⟩ := FreeCursor.char_plain (plain_of_endless hchars)
  have hread := memRead_freeKey hkeys.1 (plain_of_endless hkeys) hchars.1 hchar
  refine ⟨_, ⟨⟨_, hread, by decide⟩, fun a ha => ?_⟩, endless_next hkeys, endless_next hchars⟩
  by_cases hkbdr : a = params.kbdr
  · rw [hkbdr, State.poke_peek_same]
    exact zext16_ne_zero hb
  · rw [(memRead_done hread).1.peek a ha hkbdr]
    exact hwords a ha hkbdr

theorem nothingEnds_rounds_of_steady {s : State} (k : Nat) (h : Steady s)
    (hwords : ∀ a, a ≠ params.kbsr → a ≠ params.kbdr → s.peek a ≠ 0) :
    NothingEnds (65536 * k) params.kbsr s := by
  induction k generalizing s with
  | zero => trivial
  | succ k ih =>
    obtain ⟨t, hround, hsteady⟩ := exists_round_of_steady h hwords
    rw [Nat.mul_succ, Nat.add_comm]
    exact (nothingEnds_round_iff _ s).mpr ⟨t, hround, ih hsteady fun a ha _ => hround.words a ha⟩

/-! ### The bound is exact -/

/-- As many rounds as the budget and one more: in one of them it is not used up further, so it is endless. -/
theorem nothingEnds_forever_of_rounds {s : State} {k : Nat} (hbudget : pollBudget s < k)
    (h : NothingEnds (65536 * k) params.kbsr s) (n : Nat) : NothingEnds n params.kbsr s := by
  induction k generalizing s with
  | zero => exact absurd hbudget (Nat.not_lt_zero _)
  | succ k ih =>
    rw [Nat.mul_succ, Nat.add_comm] at h
    obtain ⟨t, hround, hrest⟩ := (nothingEnds_round_iff _ s).mp h
    obtain hspent | hsteady := hround.budget_lt_or_steady
    · have hforever := ih (Nat.lt_of_lt_of_le hspent (Nat.le_of_lt_succ hbudget)) hrest
      exact nothingEnds_mono ((nothingEnds_round_iff n s).mpr ⟨t, hround, hforever⟩) (Nat.le_add_left _ _)
    · obtain ⟨w, hread, -⟩ := hround.read
      have hwords : ∀ a, a ≠ params.kbsr → a ≠ params.kbdr → s.peek a ≠ 0 := fun a ha hd =>
        (memRead_done hread).1.peek a ha hd ▸ hround.words a ha
      exact nothingEnds_mono (nothingEnds_rounds_of_steady n hsteady hwords) (by omega)

/-- A first round as far as KBSR, and behind it the rounds of the budget. -/
theorem nothingEnds_scanFuel_iff (a : Word) (s : State) :
    NothingEnds (scanFuel s) a s ↔ ∀ n, NothingEnds n a s := by
  refine ⟨fun h n => ?_, fun h => h _⟩
  have hdist := (params.kbsr - a).isLt
  have hfuel : (params.kbsr - a).toNat + 65536 * (pollBudget s + 1) ≤ scanFuel s := by
    unfold scanFuel
    omega
  obtain ⟨hwords, hrounds⟩ := (nothingEnds_dist_add_iff a _ s).mp (nothingEnds_mono h hfuel)
  have hforever := nothingEnds_forever_of_rounds (Nat.lt_succ_self _) hrounds n
  exact nothingEnds_mono ((nothingEnds_dist_add_iff a n s).mpr ⟨hwords, hforever⟩) (Nat.le_add_left _ _)

theorem exec_string_eq_hang_iff {i : Instr} (hi : i = .puts ∨ i = .putsp) (s : State) :
    exec i s = .fault .stringHang ↔ ∀ n, NothingEnds n (s.reg .r0) s := by
  rw [exec_string_eq hi, writeString_eq_hang_iff, nothingEnds_scanFuel_iff, link_r0]
  exact forall_congr' fun n => nothingEnds_congr (link_sameReads s)

/-! ### A zero word ends every string -/

/-- No read changes the zero word, so the scan does not get past it. -/
theorem not_nothingEnds_of_zero {z a : Word} {n : Nat} {s : State} (hkbsr : z ≠ params.kbsr)
    (hkbdr : z ≠ params.kbdr) (hzero : s.peek z = 0) (hdist : (z - a).toNat < n) : ¬ NothingEnds n a s := by
  induction n generalizing a s with
  | zero => exact absurd hdist (Nat.not_lt_zero _)
  | succ n ih =>
    rintro ⟨w, t, hread, hw, hrest⟩
    obtain ⟨hframe, hpeek⟩ := memRead_done hread
    have hkept : t.peek z = 0 := (hframe.peek z hkbsr hkbdr).trans hzero
    by_cases ha : z = a
    · exact hw (hpeek.trans (ha ▸ hkept))
    · exact ih hkept (by bv_omega) hrest

/-- What a string routine that comes to an end leaves of the run state. -/
theorem exec_string_run {i : Instr} (hi : i = .puts ∨ i = .putsp) {s : State} (h : exec i s ≠ .fault .stringHang) :
    ∃ t, exec i s = .next t ∧ (t.run = s.run ∨ ∃ r, t.run = .faulted (.ioFault r (s.pc - 1))) := by
  rw [exec_string_eq hi] at h ⊢
  obtain ⟨t, hframe, hnext⟩ | ⟨r, t, hframe, hnext⟩ | hhang := writeString_cases (stringBytes i) (link s)
  · exact ⟨_, hnext, .inl hframe.run⟩
  · exact ⟨_, hnext, .inr ⟨r, congrArg (fun p => RunState.faulted (.ioFault r (p - 1))) hframe.pc⟩⟩
  · exact absurd hhang h

/-- Settles O33: a zero word makes the reads that nothing ends finitely many, and the fuel of the scan is enough
to tell whether they are. -/
theorem stringRoutinesEndAtSomeZeroWord : Obligations.StringRoutinesEndAtSomeZeroWord := by
  unfold Obligations.StringRoutinesEndAtSomeZeroWord
  refine fun s i hi => ⟨fun z hkbsr hkbdr hzero => ?_, exec_string_eq_hang_iff hi s⟩
  have hends : exec i s ≠ .fault .stringHang := fun hhang =>
    not_nothingEnds_of_zero hkbsr hkbdr hzero (z - s.reg .r0).isLt ((exec_string_eq_hang_iff hi s).mp hhang _)
  obtain ⟨t, hexec, hrun⟩ := exec_string_run hi hends
  have hlink := exec_string_linkWritten hi hexec
  have hnoStore : isStore i = false := by rcases hi with rfl | rfl <;> rfl
  exact ⟨t, hexec, hlink.link, hlink.pc, hlink.others, (exec_noStore hnoStore hexec).peek, hrun⟩

end Sys2Proof.Machine
end

section
/-! Proofs of the family `45_unknown_opcodes.md`: RTI and RES raise with their own word, whose opcode value weighs
4096 and whose low twelve bits are the ignored ones (R230, R231). -/

namespace Sys2Proof.Machine

open Sys2Proof.Config

/-- R80 in numbers: the opcode value stands above twelve bits. -/
theorem wordOf_eq_ofNat (t : Slot) (body : BitVec 12) :
    wordOf t body = BitVec.ofNat 16 (2 ^ 12 * (params.opmap t).toNat + body.toNat) := by
  unfold wordOf
  rw [Nat.two_pow_add_eq_or_of_lt body.isLt, Nat.mul_comm, ← Nat.shiftLeft_eq, ← BitVec.toNat_append,
    BitVec.ofNat_toNat, BitVec.setWidth_eq]

/-- R231: RES changes the run state only. -/
theorem exec_res_eq (unused : BitVec 12) (s : State) : exec (.res unused) s =
    .next { s with run := .faulted (.unknownOpcode .res (encode (.res unused)) s.pc0) } := rfl

/-- The word of an RTI, by its PRESUMED opcode value 0x8 (D1). -/
theorem encode_rti_eq (u : BitVec 12) : encode (.rti u) = BitVec.ofNat 16 (0x8000 + u.toNat) :=
  wordOf_eq_ofNat .rti u

/-- The word of a RES, by its PRESUMED opcode value 0xD (D1). -/
theorem encode_res_eq (u : BitVec 12) : encode (.res u) = BitVec.ofNat 16 (0xD000 + u.toNat) :=
  wordOf_eq_ofNat .res u

/-- Settles O39: both raise with their own word, and to raise is to set the run state. -/
theorem abortingOpcodesFault : Obligations.AbortingOpcodesFault := by
  unfold Obligations.AbortingOpcodesFault
  intro s u
  rw [exec_rti_eq, exec_res_eq, encode_rti_eq, encode_res_eq]
  exact ⟨rfl, rfl⟩

end Sys2Proof.Machine
end

section
/-! Proofs of the family `60_exceptions.md`: the fault that an instruction raises names its cause (R240, R249, D8,
D18, D19). A handler that may call `read_char` raises nothing but IOFault. -/

namespace Sys2Proof.Machine

open Sys2Proof.Config (IOReport)
open Sys2Proof.Claims

/-! ### The handlers that may call `read_char` (R245) -/

/-- From `s` to `t` the run state is kept, or IOFault was raised. -/
def RunKeptOrIOFault (s t : State) : Prop := t.run = s.run ∨ ∃ r pc0, t.run = .faulted (.ioFault r pc0)

section
variable {s t : State}

theorem raiseIO_runKept {r : IOReport} (s : State) {s1 : State} (h : raiseIO r s1 = .next t) :
    RunKeptOrIOFault s t := by
  cases h; exact .inr ⟨r, s1.pc0, rfl⟩

theorem loadInto_runKept {dr : Reg} {ea : Word} (h : loadInto dr ea s = .next t) : RunKeptOrIOFault s t := by
  obtain ⟨w, s1, hread, hnext⟩ | ⟨r, s1, -, hnext⟩ := loadInto_cases dr ea s
  · cases hnext.symm.trans h; exact .inl (memRead_done hread).1.run
  · exact raiseIO_runKept s (hnext.symm.trans h)

theorem exec_ldi_runKept {dr : Reg} {off : BitVec 9} (h : exec (.ldi dr off) s = .next t) : RunKeptOrIOFault s t := by
  cases hread : memRead (plusSigned s.pc off) s with
  | done ea s1 =>
    rw [exec_ldi_of_done dr hread] at h
    exact (loadInto_runKept h).imp_left (·.trans (memRead_done hread).1.run)
  | failed r s1 =>
    rw [exec_ldi_of_failed dr hread] at h
    exact raiseIO_runKept s h

theorem exec_sti_runKept {sr : Reg} {off : BitVec 9} (h : exec (.sti sr off) s = .next t) : RunKeptOrIOFault s t := by
  cases hread : memRead (plusSigned s.pc off) s with
  | done ea s1 =>
    cases (exec_sti_of_done sr hread).symm.trans h
    exact .inl (memRead_done hread).1.run
  | failed r s1 =>
    rw [exec_sti_of_failed sr hread] at h
    exact raiseIO_runKept s h

/-- R203, R206: no character yet, and the step is held; a character; or a failing read. -/
theorem exec_input_runKept {i : Instr} (hi : i = .getc ∨ i = .inEcho) (h : exec i s = .next t) :
    RunKeptOrIOFault s t := by
  obtain ⟨u, hnext, hkept⟩ : ∃ u, exec i s = .next u ∧ RunKeptOrIOFault s u := by
    match hinput : s.iob.input with
    | [] =>
      rcases hi with rfl | rfl
      · exact ⟨_, exec_getc_of_input_nil hinput, .inl rfl⟩
      · exact ⟨_, exec_inEcho_of_input_nil hinput, .inl rfl⟩
    | .byte b :: cs =>
      rcases hi with rfl | rfl
      · exact (exec_getc_byte hinput).imp fun _ => And.imp_right fun ⟨hloaded, _⟩ => .inl hloaded.run
      · exact (exec_inEcho_byte hinput).imp fun _ => And.imp_right fun ⟨hloaded, _⟩ => .inl hloaded.run
    | .fail r :: cs =>
      rcases hi with rfl | rfl
      · exact (exec_getc_fail hinput).imp fun _ => And.imp_right fun ⟨_, hfault, _⟩ => .inr ⟨r, _, hfault⟩
      · exact (exec_inEcho_fail hinput).imp fun _ => And.imp_right fun ⟨_, hfault, _⟩ => .inr ⟨r, _, hfault⟩
  cases hnext.symm.trans h; exact hkept

theorem writeString_runKept {bytes : Word → List Byte} (h : writeString bytes s = .next t) :
    RunKeptOrIOFault s t := by
  obtain ⟨u, hscan, hnext⟩ | ⟨r, u, -, hnext⟩ | hhang := writeString_cases bytes s
  · cases hnext.symm.trans h; exact .inl hscan.run
  · exact raiseIO_runKept s (hnext.symm.trans h)
  · cases hhang.symm.trans h

theorem exec_runKept_of_mayReadCharacter {i : Instr} (hi : mayReadCharacter i = true) (h : exec i s = .next t) :
    RunKeptOrIOFault s t := by
  cases i with
  | ld | ldr => exact loadInto_runKept h
  | ldi => exact exec_ldi_runKept h
  | sti => exact exec_sti_runKept h
  | getc => exact exec_input_runKept (.inl rfl) h
  | inEcho => exact exec_input_runKept (.inr rfl) h
  | puts | putsp => exact writeString_runKept (s := link s) h
  | _ => cases hi

end

/-! ### The cause of each fault (R240, R249) -/

/-- The instruction can raise the fault. -/
def CanRaise (i : Instr) : FaultRecord → Prop
  | .unknownOpcode op _ _ => ∃ u, (op = .rti ∧ i = .rti u) ∨ (op = .res ∧ i = .res u)
  | .unknownTrapVector v _ => i = .trapUnlisted v
  | .ioFault _ _ => mayReadCharacter i = true

theorem exec_canRaise {i : Instr} {s t : State} {f : FaultRecord} (hwf : i.wellFormed = true)
    (hrun : s.run = .running) (h : exec i s = .next t) (hf : t.run = .faulted f) : CanRaise i f := by
  cases hi : mayReadCharacter i with
  | true =>
    obtain hkept | ⟨r, pc0, hfault⟩ := exec_runKept_of_mayReadCharacter hi h
    · cases (hkept.trans hrun).symm.trans hf
    · cases hfault.symm.trans hf; exact hi
  | false =>
    cases i with
    | rti u => cases (exec_rti_eq u s).symm.trans h; cases hf; exact ⟨u, .inl ⟨rfl, rfl⟩⟩
    | res u => cases (exec_res_eq u s).symm.trans h; cases hf; exact ⟨u, .inr ⟨rfl, rfl⟩⟩
    | trapUnlisted v => cases (exec_trapUnlisted_eq v s).symm.trans h; cases hf; rfl
    | halt => cases (exec_halt_eq s).symm.trans h; cases hf
    | br n z p off => cases (exec_br_eq n z p off s).symm.trans h; cases hrun.symm.trans hf
    | addReg | addImm | andReg | andImm | notReg | lea | jmp | jsr | jsrr | st | str | out =>
      cases h; cases hrun.symm.trans hf
    | trap => cases hwf
    | _ => cases hi

/-- Settles O50: a fetch that fails is an IOFault of its own, and any other fault is one its instruction can raise. -/
theorem faultsComeOnlyFromTheirCauses : Obligations.FaultsComeOnlyFromTheirCauses := by
  unfold Obligations.FaultsComeOnlyFromTheirCauses
  intro s t f hstep hf
  obtain ⟨hrun, ⟨ir, s1, hfetch, hread, hexec⟩ | ⟨r, s1, hfetch, -, rfl⟩⟩ := step_cases hstep
  · have hadvanced : s1.advance.run = .running := hread.run.trans hrun
    have hcause : CanRaise (decode ir) f := exec_canRaise (wellFormed_decode ir) hadvanced hexec hf
    cases f with
    | unknownOpcode op word pc0 =>
      obtain ⟨u, hdecode⟩ := hcause
      exact ⟨ir, s1, u, hfetch, hdecode⟩
    | unknownTrapVector v pc0 => exact ⟨ir, s1, hfetch, hcause⟩
    | ioFault r pc0 => exact .inr ⟨ir, s1, hfetch, hcause⟩
  · cases hf; exact .inl ⟨s1, hfetch⟩

end Sys2Proof.Machine
end

section
/-! Proofs of the family `70_reset_and_hazards.md`, the loader and the boot (R271 to R277): the loader is a run of
plain writes of memory, and a boot is those of every image that loads. -/

namespace Sys2Proof.Machine

open Sys2Proof.Claims

/-! ### Reset (R271) -/

theorem State.reset_reg (r : Reg) : State.reset.reg r = 0 := by cases r <;> rfl

/-- Settles O45: nothing is listed in reset memory, and the run state is the boot's own. -/
theorem resetLeavesZeros : Obligations.ResetLeavesZeros :=
  ⟨State.reset_reg, rfl, rfl, fun _ => rfl, nofun⟩

/-! ### The words of an image (R275) -/

/-- A word as an image holds it, high byte first. -/
def wordBytes (w : Word) : List Byte := [w.extractLsb' 8 8, w.extractLsb' 0 8]

theorem imageWord_wordBytes (w : Word) : imageWord (w.extractLsb' 8 8) (w.extractLsb' 0 8) = w := by
  rw [imageWord, BitVec.extractLsb'_append_extractLsb'_eq_extractLsb' (by decide), BitVec.extractLsb'_eq_self]

theorem imageWord_toNat (hi lo : Byte) : (imageWord hi lo).toNat = hi.toNat * 256 + lo.toNat := by
  rw [imageWord, BitVec.toNat_append, Nat.shiftLeft_eq, Nat.mul_comm, ← Nat.two_pow_add_eq_or_of_lt lo.isLt,
    Nat.mul_comm]

theorem loadImage_imageBytes (origin : Word) (ws : List Word) (s : State) :
    loadImage (imageBytes origin ws) s = .ok (loadWords (ws.flatMap wordBytes) origin.toNat s) := by
  change Except.ok (loadWords _ (imageWord _ _).toNat s) = _
  rw [imageWord_wordBytes]
  rfl

/-! ### The loop of the loader (R275) -/

theorem loadWords_eq_with_mem (b : List Byte) (a : Nat) (s : State) :
    loadWords b a s = { s with mem := (loadWords b a s).mem } := by
  fun_induction loadWords b a s with
  | case1 hi lo rest a s hbound ih => exact ih
  | case2 hi lo rest a s hbound => rfl
  | case3 b a s hshort => rfl

/-- R286: the loop stores nothing below its first address, and nothing behind its last whole word. -/
theorem loadWords_peek_outside {b : List Byte} {a : Nat} {s : State} {x : Word}
    (h : x.toNat < a ∨ a + b.length / 2 ≤ x.toNat) : (loadWords b a s).peek x = s.peek x := by
  fun_induction loadWords b a s with
  | case1 hi lo rest a s hbound ih =>
    simp only [List.length_cons] at h
    have hother : x ≠ BitVec.ofNat 16 a := by
      rintro rfl
      rw [BitVec.toNat_ofNat] at h
      omega
    exact (ih (by omega)).trans (s.poke_peek_other _ _ x hother)
  | case2 hi lo rest a s hbound => rfl
  | case3 b a s hshort => rfl

theorem loadWords_cons (w : Word) (ws : List Word) {a : Nat} (s : State) (h : a < 65536) :
    loadWords ((w :: ws).flatMap wordBytes) a s =
      loadWords (ws.flatMap wordBytes) (a + 1) (s.poke (BitVec.ofNat 16 a) w) := by
  change ite (a ≤ 0xFFFF) (loadWords (ws.flatMap wordBytes) _ (s.poke _ (imageWord _ _))) s = _
  rw [if_pos (Nat.le_of_lt_succ h), imageWord_wordBytes]

/-- R277: after a word is written, the rest of the loop leaves it. -/
theorem loadWords_peek_word {ws : List Word} {a k : Nat} (s : State) (h : k < ws.length) (hbound : a + k < 65536) :
    (loadWords (ws.flatMap wordBytes) a s).peek (BitVec.ofNat 16 (a + k)) = ws[k] := by
  induction ws generalizing a k s with
  | nil => cases h
  | cons w ws ih =>
    rw [loadWords_cons w ws s (by omega)]
    cases k with
    | zero =>
      have hbelow : (BitVec.ofNat 16 (a + 0)).toNat < a + 1 := by rw [BitVec.toNat_ofNat]; omega
      exact (loadWords_peek_outside (.inl hbelow)).trans (s.poke_peek_same _ w)
    | succ k =>
      rw [← Nat.succ_add_eq_add_succ a k]
      exact ih _ (Nat.lt_of_succ_lt_succ h) (by omega)

/-- Settles O58: an image of words is its origin and the loop over their bytes. -/
theorem loaderRoundTrip : Obligations.LoaderRoundTrip := by
  unfold Obligations.LoaderRoundTrip
  intro s origin ws
  refine ⟨_, loadImage_imageBytes origin ws s, fun k hk hbound => ?_⟩
  rw [← loadWords_peek_word s hk hbound, BitVec.ofNat_add, BitVec.ofNat_toNat, BitVec.setWidth_eq]

/-! ### One image (R275) -/

theorem loadImage_of_short {b : List Byte} (s : State) (h : b.length < 2) :
    loadImage b s = .error .originUnreadable := by
  match b, h with
  | [], _ | [_], _ => rfl

theorem loadImage_of_origin {b : List Byte} (s : State) (h : 2 ≤ b.length) :
    ∃ m, loadImage b s = .ok { s with mem := m } := by
  match b, h with
  | hi :: lo :: rest, _ => exact ⟨_, congrArg Except.ok (loadWords_eq_with_mem rest _ s)⟩

/-- Settles O59: an image that has an origin loads, and its loop stores in its own range only. -/
theorem loaderStaysInItsRange : Obligations.LoaderStaysInItsRange := by
  unfold Obligations.LoaderStaysInItsRange
  refine ⟨fun s hi lo rest => ?_, fun s b hshort => loadImage_of_short s hshort⟩
  have hmem := loadWords_eq_with_mem rest (imageWord hi lo).toNat s
  refine ⟨_, rfl, fun a ha => loadWords_peek_outside (imageWord_toNat hi lo ▸ ha), ?_⟩
  rw [hmem]
  exact ⟨rfl, rfl, rfl, rfl, rfl⟩

/-! ### The boot (R272, R276) -/

/-- The images that load are those with a whole origin, and loading them changes memory only. -/
theorem loadImages_eq (images : List (List Byte)) (s : State) :
    ∃ m, loadImages images s = ({ s with mem := m }, images.countP (2 ≤ ·.length)) := by
  induction images generalizing s with
  | nil => exact ⟨s.mem, rfl⟩
  | cons b images ih =>
    by_cases hb : 2 ≤ b.length
    · obtain ⟨m1, hload⟩ := loadImage_of_origin s hb
      obtain ⟨m, hrest⟩ := ih { s with mem := m1 }
      refine ⟨m, ?_⟩
      rw [List.countP_cons_of_pos (by simpa using hb), loadImages, hload]
      simp only [hrest]
    · obtain ⟨m, hrest⟩ := ih s
      refine ⟨m, ?_⟩
      rw [List.countP_cons_of_neg (by simpa using hb), loadImages, loadImage_of_short s (by omega)]
      exact hrest

/-- R271, R276: the booted machine is the reset machine with images in memory, RUNNING when there is one. -/
theorem boot_eq (images : List (List Byte)) :
    ∃ m, boot images = { State.reset with
      mem := m
      run := if ∃ b ∈ images, 2 ≤ b.length then .running else .boot } := by
  obtain ⟨m, hload⟩ := loadImages_eq images State.reset
  refine ⟨m, ?_⟩
  have hcount : 0 < images.countP (2 ≤ ·.length) ↔ ∃ b ∈ images, 2 ≤ b.length := by
    simp only [List.countP_pos_iff, decide_eq_true_eq]
  by_cases hany : ∃ b ∈ images, 2 ≤ b.length
  · simp only [boot, hload, if_neg (hcount.mpr hany).ne', if_pos hany]
  · simp only [boot, hload, if_pos (Nat.eq_zero_of_not_pos (mt hcount.mp hany)), if_neg hany]
    rfl

/-- Settles O60: the run state after the boot says whether a step is enabled. -/
theorem bootNeedsAnImage : Obligations.BootNeedsAnImage := by
  unfold Obligations.BootNeedsAnImage
  intro images
  obtain ⟨m, hboot⟩ := boot_eq images
  rw [hboot]
  refine ⟨fun hshort => noStepUnlessRunning _ ?_, fun hloaded => if_pos hloaded, rfl, rfl, State.reset_reg⟩
  have hnone : ¬∃ b ∈ images, 2 ≤ b.length := fun ⟨b, hb, hlen⟩ => (hshort b hb).not_ge hlen
  simp only [if_neg hnone]
  nofun

end Sys2Proof.Machine
end

section
/-! Proofs of the family `70_reset_and_hazards.md`, noninterference (R283): the answers of the environment to come
are a field that an instruction which asks nothing neither reads nor writes. -/

namespace Sys2Proof.Machine

open Sys2Proof.Config (ReadResult)
open Sys2Proof.Claims

theorem loadInto_of_plain {d : Reg} {ea : Word} (s : State) (h : ea ≠ params.kbsr) :
    loadInto d ea s = .next (s.setReg d (s.peek ea)) := by
  simp only [loadInto, memRead_plain ea s h]

/-- The operand address is no business of the answers to come, and a read off KBSR asks for none. -/
theorem exec_load_withAnswers {i : Instr} {d : Reg} {ea : Word} (s : State) (ks : List Bool) (cs : List ReadResult)
    (kc cc : FreeCursor) (h : operandAddress i s = some (d, ea)) (hea : ea ≠ params.kbsr) :
    exec i (withAnswers s ks cs kc cc) = Result.withAnswers (exec i s) ks cs kc cc := by
  have h' : operandAddress i (withAnswers s ks cs kc cc) = some (d, ea) := h
  rw [exec_of_operandAddress h, exec_of_operandAddress h', loadInto_of_plain s hea, loadInto_of_plain _ hea]
  rfl

/-- Settles O53: the handlers without a read pass the answers on unread, and a read off KBSR is plain. -/
theorem unaskedAnswersHaveNoEffect : Obligations.UnaskedAnswersHaveNoEffect := by
  unfold Obligations.UnaskedAnswersHaveNoEffect
  intro i s ks cs kc cc h
  cases i with
  | ld d off => exact exec_load_withAnswers s ks cs kc cc rfl h
  | ldr d base off => exact exec_load_withAnswers s ks cs kc cc rfl h
  | ldi d off =>
    obtain ⟨hpointer, hoperand⟩ := h
    exact exec_load_withAnswers s ks cs kc cc (if_neg hpointer) hoperand
  | sti sr off =>
    have hread (t : State) : memRead (plusSigned s.pc off) t = .done _ t := memRead_plain _ t h
    rw [exec_sti_of_done sr (hread s), exec_sti_of_done (s := withAnswers s ks cs kc cc) sr (hread _)]
    rfl
  | br n z p off =>
    rw [exec_br_eq, exec_br_eq]
    rfl
  | trap | getc | inEcho | puts | putsp => cases h
  | addReg | addImm | andReg | andImm | notReg | lea | jmp | jsr | jsrr | st | str | rti | res | out | halt
  | trapUnlisted => rfl

end Sys2Proof.Machine
end
